-- ==== Sys2Proof/Word.lean ====
section
/-!
DEFINITION. The word types of the block: command words, bytes, host data words, scalar registers and register indices.
-/

namespace Sys2Proof

/-- One byte of the string buffer (R28). -/
abbrev Byte := BitVec 8

/-- A 32-bit word of the host bus: a command word (R70) or the data of a window slot (R51). -/
abbrev HostWord := BitVec 32

/-- A 64-bit scalar: ARG and RES (R26, R27). -/
abbrev Scalar := BitVec 64

/-- A register index, 0 to 15. Every 4-bit value is a valid index (R70), so there is no ill-formed one. -/
abbrev RegIdx := Fin 16

end Sys2Proof
end

