-- ==== Sys2Proof/Config.lean ====
section
/-!
DEFINITION. What an implementation fixes (the OPEN parameters of R6 and R51) and the free values the spec leaves open.
-/

namespace Sys2Proof

/-- The OPEN parameters of the block. The machine carries them in its state and no step changes them, so a statement about
every state ranges over every configuration (D2, D3, D6, D20, D25). -/
structure Config where
  /-- W, the bits of a word: 8, 16 or 32 (R6). -/
  wordBits : Nat
  /-- N, the bits of a big number (R6). -/
  totalBits : Nat
  /-- STRBUF_BYTES, the bytes of the string buffer (R6). -/
  strbufBytes : Nat
  /-- LAT_MAX, the largest latency of a command in clock cycles (R6, R209). -/
  latMax : Nat
  /-- BASE, the host address of window offset 0 (R51). -/
  base : Nat
  deriving DecidableEq, Repr

namespace Config

/-- K = N / W, the words of a big number (R6). -/
def wordCount (c : Config) : Nat := c.totalBits / c.wordBits

/-- M = 2^N, the modulus of every big-number result (R6). -/
def modulus (c : Config) : Nat := 2 ^ c.totalBits

/-- N / 4, the base-16 digits of a full-width value (R7). -/
def maxDigits (c : Config) : Nat := c.totalBits / 4

/-- The reference configuration of R6: W = 32, N = 1024, STRBUF_BYTES = N/4 + 1. LAT_MAX and BASE are OPEN with no reference
value; the two numbers here are the model's (DESIGN CHOICE, log entry 1, unsafe). -/
def reference : Config :=
  { wordBits := 32, totalBits := 1024, strbufBytes := 257, latMax := 1000000, base := 0 }

/-- The small test configuration of R6: W = 8, N = 32, STRBUF_BYTES = 16. LAT_MAX and BASE as in `reference`. -/
def small : Config :=
  { wordBits := 8, totalBits := 32, strbufBytes := 16, latMax := 1000000, base := 0 }

end Config

/-- NREG = 16 (R6). -/
def numRegs : Nat := 16

/-- What a free value is drawn for. Two sites of one draw are two independent values. -/
inductive DrawSite where
  /-- The contents of an unwritten word `j` of register `r` (R25). -/
  | regWord (r j : Nat)
  /-- The contents of the unwritten byte `j` of STRBUF (R25). -/
  | strByte (j : Nat)
  /-- The value an aliased command leaves in its destination register `r` (R80). -/
  | aliasedDst (r : Nat)
  /-- How many STATUS reads return BUSY = 1 after a command is started (R211). -/
  | busyReads
  /-- The latency of a command (R209). -/
  | latency
  deriving DecidableEq, Repr

/-- The free values (R13): what the hardware chooses at the `n`-th draw for a site. It has no body, so no proof can rest on what it is;
each use reduces it to the width the spec states. Log entry 6. -/
opaque Config.draw (n : Nat) (site : DrawSite) : Nat

end Sys2Proof
end

