-- ==== Sys2Proof/Syntax.lean ====
section
/-!
DEFINITION. The 23 commands, one constructor for each row of spec/opcode_table.json (R74), with the register fields of the row's
format (R71). Operands stand in assembly order: destinations first (R81).
-/

namespace Sys2Proof

/-- The command set (R74). `d` is field D, `e` field E, `a` field A, `b` field B (R70, R72). -/
inductive Instr where
  | add (d a b : RegIdx)
  | sub (d a b : RegIdx)
  | mul (d a b : RegIdx)
  | div (d a b : RegIdx)
  | and (d a b : RegIdx)
  | or (d a b : RegIdx)
  | xor (d a b : RegIdx)
  | pow (d a b : RegIdx)
  | mod (d a b : RegIdx)
  | rshift (d a : RegIdx)
  | lshift (d a : RegIdx)
  | isqrt (d a : RegIdx)
  | divmod (d e a b : RegIdx)
  | inc (d : RegIdx)
  | dec (d : RegIdx)
  | cmp (a b : RegIdx)
  | iszero (a : RegIdx)
  | init (d : RegIdx)
  | fromint (d : RegIdx)
  | toint (a : RegIdx)
  | assign (d a : RegIdx)
  | tostr (a : RegIdx)
  | fromstr (d : RegIdx)
  deriving DecidableEq, Repr

end Sys2Proof
end

