-- ==== Sys2Proof/WellFormed.lean ====
section
/-!
DEFINITION. What a legal configuration is (R6, R7) and what a legal command word is by the prose of R70, R71 and R75 (the decoder follows
R74's table instead; that the two agree is a statement). A term of `Instr` has no check of its own: each of its fields is a 4-bit register
index and every value is valid (R70).
-/

namespace Sys2Proof

/-- W is one of the three word widths (R7). -/
abbrev Config.wordBitsOk (c : Config) : Prop := c.wordBits = 8 ∨ c.wordBits = 16 ∨ c.wordBits = 32

/-- N is a positive multiple of W with at most 1024 words (R7). -/
abbrev Config.totalBitsOk (c : Config) : Prop :=
  c.totalBits % c.wordBits = 0 ∧ 1 ≤ c.wordCount ∧ c.wordCount ≤ 1024

/-- N/4 + 1 ≤ STRBUF_BYTES ≤ 16384 (R6). -/
abbrev Config.strbufOk (c : Config) : Prop := c.maxDigits + 1 ≤ c.strbufBytes ∧ c.strbufBytes ≤ 16384

/-- LAT_MAX is at least the least latency, one cycle. Neither R6 nor R7 says so: DEDUCED from R209, whose latency is at least 1 and at most LAT_MAX (log entry 1, safe). -/
abbrev Config.latencyOk (c : Config) : Prop := 1 ≤ c.latMax

/-- The configurations that are this hardware (R6, R7; LAT_MAX by R209, log entry 1). Any other is refused. -/
abbrev Config.Wf (c : Config) : Prop := c.wordBitsOk ∧ c.totalBitsOk ∧ c.strbufOk ∧ c.latencyOk

/-- The six formats of R71. -/
inductive Format where
  | DAB | DEAB | DA | D | A | AB
  deriving DecidableEq, Repr

/-- The format of an opcode by R71's list of commands and R74's numbers; none for the undefined opcodes. -/
def formatOfOpcode (opc : Nat) : Option Format :=
  if opc ≤ 8 then some .DAB
  else if opc ≤ 11 then some .DA
  else if opc = 12 then some .DEAB
  else if opc ≤ 14 then some .D
  else if opc = 15 then some .AB
  else if opc = 16 then some .A
  else if opc ≤ 18 then some .D
  else if opc = 19 then some .A
  else if opc = 20 then some .DA
  else if opc = 21 then some .A
  else if opc = 22 then some .D
  else none

/-- Does the format use field D, A, B, E (R71)? -/
def Format.usesD : Format → Bool
  | .DAB | .DEAB | .DA | .D => true
  | .A | .AB => false

/-- Field A is used (R71). -/
def Format.usesA : Format → Bool
  | .DAB | .DEAB | .DA | .A | .AB => true
  | .D => false

/-- Field B is used (R71). -/
def Format.usesB : Format → Bool
  | .DAB | .DEAB | .AB => true
  | .DA | .D | .A => false

/-- Field E is used (R71). -/
def Format.usesE : Format → Bool
  | .DEAB => true
  | .DAB | .DA | .D | .A | .AB => false

/-- Bits `hi` to `lo` of a word as a number (R9). -/
def bitsOf (w : HostWord) (hi lo : Nat) : Nat := w.toNat / 2 ^ lo % 2 ^ (hi - lo + 1)

/-- A command word is legal (R75): OPC is defined, bits 7:5 and 31:24 are zero, and each register field the opcode's format does not use is
zero. -/
def wordLegal (w : HostWord) : Bool :=
  match formatOfOpcode (bitsOf w 4 0) with
  | none => false
  | some f =>
    bitsOf w 7 5 == 0 && bitsOf w 31 24 == 0
      && (f.usesD || bitsOf w 11 8 == 0)
      && (f.usesA || bitsOf w 15 12 == 0)
      && (f.usesB || bitsOf w 19 16 == 0)
      && (f.usesE || bitsOf w 23 20 == 0)

end Sys2Proof
end

