-- ==== Sys2Proof/Decode.lean ====
section
/-!
DEFINITION. The command decoder (R70, R74, R77), total on every 32-bit word, and the encoder from the same table.
-/

namespace Sys2Proof

/-- One row of R74: a word `w` selects it when `w AND mask = value`; `command` builds the command from the fields D, A, B, E. -/
structure OpcodeRow where
  mask : HostWord
  value : HostWord
  command : (d a b e : RegIdx) → Instr

/-- Field D, bits 11:8 (R70). -/
def fieldD (w : HostWord) : RegIdx := (w.extractLsb' 8 4).toFin

/-- Field A, bits 15:12 (R70). -/
def fieldA (w : HostWord) : RegIdx := (w.extractLsb' 12 4).toFin

/-- Field B, bits 19:16 (R70). -/
def fieldB (w : HostWord) : RegIdx := (w.extractLsb' 16 4).toFin

/-- Field E, bits 23:20 (R70). -/
def fieldE (w : HostWord) : RegIdx := (w.extractLsb' 20 4).toFin

/-- The opcode table of R74, in its order. -/
def opcodeRows : List OpcodeRow :=
  [ ⟨0xFFF000FF, 0x00000000, fun d a b _ => .add d a b⟩,
    ⟨0xFFF000FF, 0x00000001, fun d a b _ => .sub d a b⟩,
    ⟨0xFFF000FF, 0x00000002, fun d a b _ => .mul d a b⟩,
    ⟨0xFFF000FF, 0x00000003, fun d a b _ => .div d a b⟩,
    ⟨0xFFF000FF, 0x00000004, fun d a b _ => .and d a b⟩,
    ⟨0xFFF000FF, 0x00000005, fun d a b _ => .or d a b⟩,
    ⟨0xFFF000FF, 0x00000006, fun d a b _ => .xor d a b⟩,
    ⟨0xFFF000FF, 0x00000007, fun d a b _ => .pow d a b⟩,
    ⟨0xFFF000FF, 0x00000008, fun d a b _ => .mod d a b⟩,
    ⟨0xFFFF00FF, 0x00000009, fun d a _ _ => .rshift d a⟩,
    ⟨0xFFFF00FF, 0x0000000A, fun d a _ _ => .lshift d a⟩,
    ⟨0xFFFF00FF, 0x0000000B, fun d a _ _ => .isqrt d a⟩ ] ++
  [ ⟨0xFF0000FF, 0x0000000C, fun d a b e => .divmod d e a b⟩,
    ⟨0xFFFFF0FF, 0x0000000D, fun d _ _ _ => .inc d⟩,
    ⟨0xFFFFF0FF, 0x0000000E, fun d _ _ _ => .dec d⟩,
    ⟨0xFFF00FFF, 0x0000000F, fun _ a b _ => .cmp a b⟩,
    ⟨0xFFFF0FFF, 0x00000010, fun _ a _ _ => .iszero a⟩,
    ⟨0xFFFFF0FF, 0x00000011, fun d _ _ _ => .init d⟩,
    ⟨0xFFFFF0FF, 0x00000012, fun d _ _ _ => .fromint d⟩,
    ⟨0xFFFF0FFF, 0x00000013, fun _ a _ _ => .toint a⟩,
    ⟨0xFFFF00FF, 0x00000014, fun d a _ _ => .assign d a⟩,
    ⟨0xFFFF0FFF, 0x00000015, fun _ a _ _ => .tostr a⟩,
    ⟨0xFFFFF0FF, 0x00000016, fun d _ _ _ => .fromstr d⟩ ]

/-- The word selects the row (R74). -/
def OpcodeRow.selects (r : OpcodeRow) (w : HostWord) : Bool := (w &&& r.mask) == r.value

/-- The row a word selects, if any (R77). -/
def selectRow (w : HostWord) : Option OpcodeRow := opcodeRows.find? (·.selects w)

/-- Decode a command word (R77): the selected row's command on the word's fields; `none` for an illegal word (R75), which the machine completes
with ILLEGAL_CMD. -/
def decode (w : HostWord) : Option Instr :=
  (selectRow w).map fun r => r.command (fieldD w) (fieldA w) (fieldB w) (fieldE w)

/-- The command word with these fields, written bit 31 first (R70). -/
def packWord (opc : BitVec 5) (d a b e : RegIdx) : HostWord :=
  0#8 ++ BitVec.ofFin (w := 4) e ++ BitVec.ofFin (w := 4) b ++ BitVec.ofFin (w := 4) a ++ BitVec.ofFin (w := 4) d ++ 0#3 ++ opc

/-- The command word of a command (R74); the fields its format does not use are zero (R71). -/
def encode : Instr → HostWord
  | .add d a b => packWord 0 d a b 0
  | .sub d a b => packWord 1 d a b 0
  | .mul d a b => packWord 2 d a b 0
  | .div d a b => packWord 3 d a b 0
  | .and d a b => packWord 4 d a b 0
  | .or d a b => packWord 5 d a b 0
  | .xor d a b => packWord 6 d a b 0
  | .pow d a b => packWord 7 d a b 0
  | .mod d a b => packWord 8 d a b 0
  | .rshift d a => packWord 9 d a 0 0
  | .lshift d a => packWord 10 d a 0 0
  | .isqrt d a => packWord 11 d a 0 0
  | .divmod d e a b => packWord 12 d a b e
  | .inc d => packWord 13 d 0 0 0
  | .dec d => packWord 14 d 0 0 0
  | .cmp a b => packWord 15 0 a b 0
  | .iszero a => packWord 16 0 a 0 0
  | .init d => packWord 17 d 0 0 0
  | .fromint d => packWord 18 d 0 0 0
  | .toint a => packWord 19 0 a 0 0
  | .assign d a => packWord 20 d a 0 0
  | .tostr a => packWord 21 0 a 0 0
  | .fromstr d => packWord 22 d 0 0 0

/-- The command in the low `nbits` bits of `w`, read as the opcode table numbers them. A command is exactly one 32-bit word (R76), so the bits
from 32 up must be zero. -/
def decodeTableWord (nbits w : Nat) : Option Instr :=
  if w % 2 ^ nbits < 2 ^ 32 then decode (BitVec.ofNat 32 (w % 2 ^ nbits)) else none

end Sys2Proof
end

