-- ==== Sys2Proof/Machine/State.lean ====
section
/-!
DEFINITION. The architectural state of the block (R20) as plain data, the reasons a step can stop, and the state after reset (R201).
-/

namespace Sys2Proof.Machine

/-- One word of a big-number register: its contents and its written status (R25). `val` of an unwritten word is never read: a reader takes a
free value instead. -/
structure WordCell where
  val : Nat
  written : Bool
  deriving DecidableEq, Repr

/-- A big-number register: its K words, word 0 (least significant) first (R22). -/
abbrev BigReg := List WordCell

/-- The values of STATUS.ERR (R170). Codes 7 to 15 are never produced, so they have no constructor. -/
inductive ErrCode where
  /-- 0, NONE: the last command completed successfully. -/
  | noError
  /-- 1, ILLEGAL_CMD: the word matches no opcode row (R173). -/
  | illegalCmd
  /-- 2, DIV_BY_ZERO: DIV, MOD or DIVMOD with divisor 0 (R174). -/
  | divByZero
  /-- 3, BAD_DIGIT: FROMSTR on a byte that is no base-16 digit (R175). -/
  | badDigit
  /-- 4, STR_TOO_LONG: FROMSTR with N/4 < L ≤ STRBUF_BYTES (R176). -/
  | strTooLong
  /-- 5, BUF_TOO_SMALL: TOSTR whose text and terminator exceed the capacity (R177). -/
  | bufTooSmall
  /-- 6, BAD_LENGTH: a length or capacity above STRBUF_BYTES (R178). -/
  | badLength
  deriving DecidableEq, Repr

/-- The operand snapshot of a command (R78): each source register read with its value, ARG if the command reads it, and the string bytes FROMSTR
parses. -/
structure Snapshot where
  regs : List (RegIdx × Nat)
  arg : Option Scalar
  bytes : List Byte
  deriving DecidableEq, Repr

/-- The in-flight command (R38). -/
structure InFlight where
  /-- The command word. -/
  word : HostWord
  /-- Its operand snapshot; an illegal word has none (R77). -/
  snapshot : Option Snapshot
  /-- UF and ERR as STATUS shows them until this command completes: those of the last completed command (R29). Log entry 5. -/
  shownUf : Bool
  shownErr : ErrCode
  /-- How many STATUS reads still return BUSY = 1 (R211). Log entry 4. -/
  busyReads : Nat
  /-- Clock cycles until completion (R209). Log entry 4. -/
  cycles : Nat
  deriving DecidableEq, Repr

/-- One entry of the error log (R182): the command word and the code it completed with. -/
structure ErrEntry where
  word : HostWord
  code : ErrCode
  deriving DecidableEq, Repr

/-- What the host and the platform do to the block, one event at a time. -/
inductive HostEvent where
  /-- A read of `width` bits at a host address. -/
  | read (width addr : Nat)
  /-- A write of `width` bits at a host address. -/
  | write (width addr : Nat) (data : HostWord)
  /-- The host's `poll` loop (R81): STATUS is read until BUSY reads 0. -/
  | poll
  /-- The platform asserts the reset input (R200). -/
  | reset
  deriving DecidableEq, Repr

/-- The state of the block (R20) with the host events still to come. -/
structure State where
  /-- The configuration: CONFIG and SBUFSZ (R34), LAT_MAX and BASE. No step changes it. -/
  cfg : Config
  /-- x[0] to x[15] (R21). -/
  regs : Vector BigReg 16
  /-- ARG (R26). -/
  arg : Scalar
  /-- RES (R27). -/
  res : Scalar
  /-- STRBUF (R28): the written bytes by rising index. An index that is not listed is unwritten (R25). -/
  strbuf : List Host.Cell
  /-- STATUS.UF of the last command started (R31). -/
  uf : Bool
  /-- STATUS.ERR of the last command started (R32). -/
  err : ErrCode
  /-- The in-flight command (R38); STATUS.BUSY is 1 exactly when there is one (R30). -/
  inflight : Option InFlight
  /-- Every error completion since reset, newest first (R182; model state that the spec asks for). -/
  errLog : List ErrEntry
  /-- How many draws of free values were made (the model's own; log entry 6). -/
  draws : Nat
  /-- The host events still to be served, in issue order (the model's own; log entry 7). -/
  bus : List HostEvent
  /-- What host reads returned, newest first (the model's own; log entry 7). -/
  replies : List HostWord
  deriving DecidableEq, Repr

/-- Why the machine stops with a fault. Each is safe: the hardware goes on in a way the spec leaves open, the model stops. -/
inductive Fault where
  /-- Raised by a host access other than a read of STATUS, CONFIG or SBUFSZ while BUSY = 1, a CMD write included: its effect on the whole
  block is UNPREDICTABLE (R204, R206). Safe. -/
  | busyHazard
  /-- Raised by a host access that is not an aligned 32-bit access: its effect on the whole block is UNPREDICTABLE (R55). Also raised by one that
  starts below the window and reaches into it (log entry 8). Safe. -/
  | badAccess
  /-- Raised only by the strict step of Safety.lean, before any effect, for a command whose operand snapshot includes an unwritten word or
  byte: the treatment R25 asks of a model. The machine's own step never raises it. Safe. -/
  | unwrittenOperand
  deriving DecidableEq, Repr

/-- Why the machine has no meaning to give. -/
inductive Refusal where
  /-- Raised by an arm of `exec` whose instruction has no meaning yet; no arm does. Safe. -/
  | notModelled (mnemonic : String)
  /-- Raised by `step` for a configuration that is not this hardware (R7, R6), or with LAT_MAX = 0 (log entry 1). Safe. -/
  | badConfig
  deriving DecidableEq, Repr

/-- The state of a block of configuration `c` right after reset (R201). The contents of the unwritten words are 0 (DESIGN CHOICE, log entry 2); no read
returns them. -/
def State.resetWith (c : Config) : State :=
  { cfg := c
    regs := Vector.replicate 16 (List.replicate c.wordCount { val := 0, written := false })
    arg := 0
    res := 0
    strbuf := []
    uf := false
    err := .noError
    inflight := none
    errLog := []
    draws := 0
    bus := []
    replies := [] }

/-- The machine right after reset, in the reference configuration (R201, R6). -/
def State.reset : State := State.resetWith Config.reference

end Sys2Proof.Machine
end

