-- ==== Sys2Proof/Machine/BigNum.lean ====
section
/-!
DEFINITION. A big number as words and as a value (R22), and the comparator (R110, R111).
-/

namespace Sys2Proof.Machine

/-- The value of a word sequence of width `w`, word 0 least significant (R22). -/
def valueOf (w : Nat) : List Nat → Nat
  | [] => 0
  | x :: xs => x + 2 ^ w * valueOf w xs

/-- The low `k` words of width `w` of a value, word 0 first (R22). -/
def wordsOf (w : Nat) : Nat → Nat → List Nat
  | 0, _ => []
  | k + 1, v => v % 2 ^ w :: wordsOf w k (v / 2 ^ w)

/-- The three results of the comparator (R110). -/
inductive Order3 where
  | smaller | equal | larger
  deriving DecidableEq, Repr

/-- The comparator on values (R110), "the sole ordering primitive" (R113). -/
def compareValues (a b : Nat) : Order3 :=
  if a > b then .larger else if a = b then .equal else .smaller

/-- How RES encodes a comparison (R110): 1, 0 or 2^64 − 1. -/
def Order3.code : Order3 → Scalar
  | .larger => 1
  | .equal => 0
  | .smaller => BitVec.allOnes 64

end Sys2Proof.Machine
end

