-- ==== Sys2Proof/Machine/Memory.lean ====
section
/-!
DEFINITION. The byte memory behind STRBUF (R11, R28): a list of cells by strictly rising index. An index that is not listed is unwritten and has no value of its
own; what a reader gets there is decided where bytes are read (R25).
-/

namespace Sys2Proof.Machine

/-- The canonical form: strictly rising indices. An unlisted byte reads as no stored value, so no cell can repeat it. -/
abbrev Memory.wf (m : List Host.Cell) : Prop := m.Pairwise fun x y => x.1 < y.1

/-- The byte written at index `j`, if one was (R25). -/
def Memory.read? (m : List Host.Cell) (j : Nat) : Option Byte :=
  match m with
  | [] => none
  | c :: rest => if c.1 = j then some c.2 else Memory.read? rest j

/-- MemWrite (R11): byte `j` becomes `v` and is written. -/
def Memory.write (m : List Host.Cell) (j : Nat) (v : Byte) : List Host.Cell :=
  match m with
  | [] => [(j, v)]
  | c :: rest =>
    if j < c.1 then (j, v) :: c :: rest
    else if j = c.1 then (j, v) :: rest
    else c :: Memory.write rest j v

/-- The bytes `vs` at indices `j`, `j + 1`, … -/
def Memory.writeAll (m : List Host.Cell) (j : Nat) : List Byte → List Host.Cell
  | [] => m
  | v :: vs => Memory.writeAll (Memory.write m j v) (j + 1) vs

end Sys2Proof.Machine
end

