-- ==== Sys2Proof/Machine/Operands.lean ====
section
/-!
DEFINITION. Operand forms: reading a source register, ARG and the string bytes into the operand snapshot (R72, R73, R78), and the source and destination sets
with the aliasing test (R79, R80).
-/

namespace Sys2Proof.Machine

/-- What a reader gets for word `j` of register `r`: its contents, or, where it is unwritten, the free value of draw `n` (R25). -/
def resolveWord (c : Config) (n r j : Nat) (cell : WordCell) : Nat :=
  if cell.written then cell.val else Config.draw n (.regWord r j) % 2 ^ c.wordBits

/-- The words of a register from index `j` on, as a reader gets them (R25). -/
def resolveWords (c : Config) (n r j : Nat) : BigReg → List Nat
  | [] => []
  | cell :: rest => resolveWord c n r j cell :: resolveWords c n r (j + 1) rest

/-- The words of x[r] as a reader gets them. -/
def State.words (s : State) (r : RegIdx) : List Nat := resolveWords s.cfg s.draws r 0 s.regs[r]

/-- x[r] (R10): the value of register `r`. One draw serves one command, so two source fields that name one register read the same value (R79). -/
def State.x (s : State) (r : RegIdx) : Nat := valueOf s.cfg.wordBits (s.words r)

/-- Every word of register `r` is written (R25). -/
def State.regWritten (s : State) (r : RegIdx) : Bool := s.regs[r].all (·.written)

/-- MemRead (R11) as a reader gets it: byte `j` of STRBUF, or, where it is unwritten, a free value (R25). -/
def State.strByte (s : State) (j : Nat) : Byte :=
  match Memory.read? s.strbuf j with
  | some v => v
  | none => BitVec.ofNat 8 (Config.draw s.draws (.strByte j))

/-- Byte `j` of STRBUF is written (R25). -/
def State.byteWritten (s : State) (j : Nat) : Bool := (Memory.read? s.strbuf j).isSome

/-- ARG as an unsigned integer (R73). -/
def State.argNat (s : State) : Nat := s.arg.toNat

/-- The length FROMSTR parses when both length checks of R162 pass, else 0: only then are string bytes read (R172). -/
def State.parseLength (s : State) : Nat :=
  if s.argNat ≤ s.cfg.strbufBytes ∧ s.argNat ≤ s.cfg.maxDigits then s.argNat else 0

/-- STRBUF[0 .. L − 1] as a reader gets them. -/
def State.strBytes (s : State) (len : Nat) : List Byte := (List.range len).map s.strByte

/-- The source registers S of R79, which the aliasing rule uses. INC and DEC work in place and have none there. -/
def sources : Instr → List RegIdx
  | .add _ a b => [a, b]
  | .sub _ a b => [a, b]
  | .mul _ a b => [a, b]
  | .div _ a b => [a, b]
  | .and _ a b => [a, b]
  | .or _ a b => [a, b]
  | .xor _ a b => [a, b]
  | .pow _ a b => [a, b]
  | .mod _ a b => [a, b]
  | .rshift _ a => [a]
  | .lshift _ a => [a]
  | .isqrt _ a => [a]
  | .divmod _ _ a b => [a, b]
  | .inc _ => []
  | .dec _ => []
  | .cmp a b => [a, b]
  | .iszero a => [a]
  | .init _ => []
  | .fromint _ => []
  | .toint a => [a]
  | .assign _ a => [a]
  | .tostr a => [a]
  | .fromstr _ => []

/-- The destination registers Dst of R79. -/
def destinations : Instr → List RegIdx
  | .add d _ _ => [d]
  | .sub d _ _ => [d]
  | .mul d _ _ => [d]
  | .div d _ _ => [d]
  | .and d _ _ => [d]
  | .or d _ _ => [d]
  | .xor d _ _ => [d]
  | .pow d _ _ => [d]
  | .mod d _ _ => [d]
  | .rshift d _ => [d]
  | .lshift d _ => [d]
  | .isqrt d _ => [d]
  | .divmod d e _ _ => [d, e]
  | .inc d => [d]
  | .dec d => [d]
  | .cmp _ _ => []
  | .iszero _ => []
  | .init d => [d]
  | .fromint d => [d]
  | .toint _ => []
  | .assign d _ => [d]
  | .tostr _ => []
  | .fromstr d => [d]

/-- A destination is also a source. -/
def destinationIsSource (i : Instr) : Bool := (destinations i).any fun d => (sources i).contains d

/-- The command is aliased (R80). ASSIGN never is: with D ≠ A it has no common register, and D = A is defined by R103. -/
def aliased : Instr → Bool
  | .add d a b => destinationIsSource (.add d a b)
  | .sub d a b => destinationIsSource (.sub d a b)
  | .mul d a b => destinationIsSource (.mul d a b)
  | .div d a b => destinationIsSource (.div d a b)
  | .and d a b => destinationIsSource (.and d a b)
  | .or d a b => destinationIsSource (.or d a b)
  | .xor d a b => destinationIsSource (.xor d a b)
  | .pow d a b => destinationIsSource (.pow d a b)
  | .mod d a b => destinationIsSource (.mod d a b)
  | .rshift d a => destinationIsSource (.rshift d a)
  | .lshift d a => destinationIsSource (.lshift d a)
  | .isqrt d a => destinationIsSource (.isqrt d a)
  | .divmod d e a b => destinationIsSource (.divmod d e a b) || d == e
  | .inc _ => false
  | .dec _ => false
  | .cmp _ _ => false
  | .iszero _ => false
  | .init _ => false
  | .fromint _ => false
  | .toint _ => false
  | .assign _ _ => false
  | .tostr _ => false
  | .fromstr _ => false

/-- The command reads ARG (R73). -/
def readsArg : Instr → Bool
  | .add _ _ _ => false
  | .sub _ _ _ => false
  | .mul _ _ _ => false
  | .div _ _ _ => false
  | .and _ _ _ => false
  | .or _ _ _ => false
  | .xor _ _ _ => false
  | .pow _ _ _ => false
  | .mod _ _ _ => false
  | .rshift _ _ => true
  | .lshift _ _ => true
  | .isqrt _ _ => false
  | .divmod _ _ _ _ => false
  | .inc _ => false
  | .dec _ => false
  | .cmp _ _ => false
  | .iszero _ => false
  | .init _ => false
  | .fromint _ => true
  | .toint _ => false
  | .assign _ _ => false
  | .tostr _ => true
  | .fromstr _ => true

/-- The registers the snapshot reads (R78): the sources, and x[D] for INC and DEC. -/
def snapshotRegs : Instr → List RegIdx
  | .add d a b => sources (.add d a b)
  | .sub d a b => sources (.sub d a b)
  | .mul d a b => sources (.mul d a b)
  | .div d a b => sources (.div d a b)
  | .and d a b => sources (.and d a b)
  | .or d a b => sources (.or d a b)
  | .xor d a b => sources (.xor d a b)
  | .pow d a b => sources (.pow d a b)
  | .mod d a b => sources (.mod d a b)
  | .rshift d a => sources (.rshift d a)
  | .lshift d a => sources (.lshift d a)
  | .isqrt d a => sources (.isqrt d a)
  | .divmod d e a b => sources (.divmod d e a b)
  | .inc d => [d]
  | .dec d => [d]
  | .cmp a b => sources (.cmp a b)
  | .iszero a => sources (.iszero a)
  | .init d => sources (.init d)
  | .fromint d => sources (.fromint d)
  | .toint a => sources (.toint a)
  | .assign d a => sources (.assign d a)
  | .tostr a => sources (.tostr a)
  | .fromstr d => sources (.fromstr d)

/-- How many string bytes the snapshot reads (R78): those FROMSTR is about to parse. -/
def State.snapshotLength (s : State) : Instr → Nat
  | .fromstr _ => s.parseLength
  | .add _ _ _ => 0
  | .sub _ _ _ => 0
  | .mul _ _ _ => 0
  | .div _ _ _ => 0
  | .and _ _ _ => 0
  | .or _ _ _ => 0
  | .xor _ _ _ => 0
  | .pow _ _ _ => 0
  | .mod _ _ _ => 0
  | .rshift _ _ => 0
  | .lshift _ _ => 0
  | .isqrt _ _ => 0
  | .divmod _ _ _ _ => 0
  | .inc _ => 0
  | .dec _ => 0
  | .cmp _ _ => 0
  | .iszero _ => 0
  | .init _ => 0
  | .fromint _ => 0
  | .toint _ => 0
  | .assign _ _ => 0
  | .tostr _ => 0

/-- The operand snapshot of a legal command (R78). -/
def State.snapshot (s : State) (i : Instr) : Snapshot :=
  { regs := (snapshotRegs i).map fun r => (r, s.x r)
    arg := if readsArg i then some s.arg else none
    bytes := s.strBytes (s.snapshotLength i) }

/-- The snapshot includes an unwritten register word or STRBUF byte (R25). -/
def State.snapshotUnwritten (s : State) (i : Instr) : Bool :=
  (snapshotRegs i).any (fun r => !s.regWritten r)
    || (List.range (s.snapshotLength i)).any fun j => !s.byteWritten j

end Sys2Proof.Machine
end

