-- ==== Sys2Proof/Machine/Flags.lean ====
section
/-!
DEFINITION. STATUS.UF (R31), the error code numbers (R170), and the words STATUS, CONFIG and SBUFSZ read as (R29, R34).
-/

namespace Sys2Proof.Machine

/-- UF of SUB: the precondition a ≥ b failed (R122), by the comparator (R113). -/
def ufOfSub (a b : Nat) : Bool := compareValues a b == .smaller

/-- UF of DEC: the precondition v ≥ 1 failed (R125), by the comparator (R113). -/
def ufOfDec (v : Nat) : Bool := compareValues v 1 == .smaller

/-- The number of an error code (R170). -/
def ErrCode.number : ErrCode → Nat
  | .noError => 0
  | .illegalCmd => 1
  | .divByZero => 2
  | .badDigit => 3
  | .strTooLong => 4
  | .bufTooSmall => 5
  | .badLength => 6

/-- The 32 bits of STATUS (R29): BUSY in bit 0, UF in bit 1, ERR in bits 11:8, every other bit 0. -/
def statusBits (busy uf : Bool) (err : ErrCode) : HostWord :=
  BitVec.ofNat 32 (busy.toNat + 2 * uf.toNat + 256 * err.number)

/-- STATUS.BUSY (R30): a command is in flight. -/
def State.busy (s : State) : Bool := s.inflight.isSome

/-- What STATUS reads as (R29): while a command is in flight, BUSY = 1 beside the UF and ERR of the last completed command. -/
def State.statusWord (s : State) : HostWord :=
  match s.inflight with
  | none => statusBits false s.uf s.err
  | some f => statusBits true f.shownUf f.shownErr

/-- What CONFIG reads as (R34). -/
def State.configWord (s : State) : HostWord :=
  BitVec.ofNat 32 (s.cfg.wordBits + 2 ^ 8 * s.cfg.wordCount + 2 ^ 24 * numRegs)

/-- What SBUFSZ reads as (R34). -/
def State.sbufszWord (s : State) : HostWord := BitVec.ofNat 32 s.cfg.strbufBytes

end Sys2Proof.Machine
end

