-- ==== Sys2Proof/Machine/Ops.lean ====
section
/-!
DEFINITION. The named operations over registers and STRBUF, and how a command ends: the error completion (R171) and the successful completion (R12, R31, R80),
shared by every command. The block has no return from an error (R181).
-/

namespace Sys2Proof.Machine

/-- x[r] <- v (R10): all K words of the register are written (R24, R25). -/
def State.writeReg (s : State) (r : RegIdx) (v : Nat) : State :=
  { s with regs := s.regs.set r ((wordsOf s.cfg.wordBits s.cfg.wordCount v).map fun x => { val := x, written := true }) }

/-- Several register writes, in order. -/
def State.writeRegs (s : State) : List (RegIdx × Nat) → State
  | [] => s
  | (r, v) :: rest => (s.writeReg r v).writeRegs rest

/-- x[r].w[j] <- v mod 2^W by the host; no other word changes (R52). -/
def State.writeWord (s : State) (r : RegIdx) (j v : Nat) : State :=
  { s with regs := s.regs.set r (s.regs[r].set j { val := v % 2 ^ s.cfg.wordBits, written := true }) }

/-- MemWrite of successive bytes of STRBUF from index `j` (R11). -/
def State.writeBytes (s : State) (j : Nat) (vs : List Byte) : State :=
  { s with strbuf := Memory.writeAll s.strbuf j vs }

/-- ARG[31:0] <- v by the host (R26). -/
def State.writeArgLo (s : State) (v : HostWord) : State :=
  { s with arg := BitVec.ofNat 64 (2 ^ 32 * (s.arg.toNat / 2 ^ 32) + v.toNat) }

/-- ARG[63:32] <- v by the host (R26). -/
def State.writeArgHi (s : State) (v : HostWord) : State :=
  { s with arg := BitVec.ofNat 64 (2 ^ 32 * v.toNat + s.arg.toNat % 2 ^ 32) }

/-- What a successful command does beside STATUS.ERR <- 0: UF, the values for its destination registers, RES where it writes RES, and the bytes it
stores into STRBUF from index 0. -/
structure Effect where
  uf : Bool := false
  regs : List (RegIdx × Nat) := []
  res : Option Scalar := none
  text : List Byte := []
  deriving DecidableEq, Repr

/-- How a command ends (R12). -/
inductive Completion where
  | success (e : Effect)
  | error (code : ErrCode)
  deriving DecidableEq, Repr

/-- The error completion (R171), the block's only exception: STATUS.ERR <- code, STATUS.UF <- 0, one entry in the error log (R182), nothing else. -/
def State.raiseError (s : State) (word : HostWord) (code : ErrCode) : State :=
  { s with uf := false, err := code, errLog := { word := word, code := code } :: s.errLog }

/-- The register writes of a command: the values given, or, where the command is aliased, a free value in [0, M − 1] for each destination (R80). -/
def State.settled (s : State) (al : Bool) (writes : List (RegIdx × Nat)) : List (RegIdx × Nat) :=
  if al then writes.map fun p => (p.1, Config.draw s.draws (.aliasedDst p.1) % s.cfg.modulus) else writes

/-- The successful completion (R12, R31, R32): all effects at once (R78). -/
def State.succeed (s : State) (al : Bool) (e : Effect) : State :=
  let t := (s.writeRegs (s.settled al e.regs)).writeBytes 0 e.text
  { t with uf := e.uf, err := .noError, res := e.res.getD s.res }

/-- The completion of a command. -/
def State.complete (s : State) (word : HostWord) (al : Bool) : Completion → State
  | .success e => s.succeed al e
  | .error code => s.raiseError word code

/-- The command `word` is in flight (R30, R38): BUSY = 1, with a free count of BUSY = 1 reads (R211) and a free latency in [1, LAT_MAX] (R209); `s` is the
state before the command, whose UF and ERR STATUS shows until the command completes. -/
def State.launch (t s : State) (word : HostWord) (snap : Option Snapshot) : State :=
  { t with
    inflight := some
      { word := word
        snapshot := snap
        shownUf := s.uf
        shownErr := s.err
        busyReads := Config.draw s.draws .busyReads
        cycles := 1 + Config.draw s.draws .latency % s.cfg.latMax }
    draws := s.draws + 1 }

/-- The execution of a legal command (R77) once its completion is known: the completion's effects, and the command in flight. -/
def State.conclude (s : State) (i : Instr) (c : Completion) : State :=
  (s.complete (encode i) (aliased i) c).launch s (encode i) (some (s.snapshot i))

/-- An illegal command word (R75, R173): ILLEGAL_CMD, no snapshot, no other effect. -/
def State.concludeIllegal (s : State) (w : HostWord) : State :=
  (s.raiseError w .illegalCmd).launch s w none

/-- The in-flight command completes: BUSY <- 0 (R30). -/
def State.finish (s : State) : State := { s with inflight := none }

end Sys2Proof.Machine
end

