-- ==== Sys2Proof/Machine/Additive.lean ====
section
/-!
DEFINITION. The additive family: ADD, SUB, INC, DEC (R120, R122, R124, R125).
-/

namespace Sys2Proof.Machine

/-- (a − b) mod M on naturals below M: a − b, or a − b + M below zero (R122). -/
def subMod (m a b : Nat) : Nat := if b ≤ a then a - b else a + m - b

/-- ADD (R120): x[D] <- (x[A] + x[B]) mod M; the carry out is discarded. -/
def execAdd (d a b : RegIdx) (s : State) : Host.Outcome State Fault Refusal :=
  .next (s.conclude (.add d a b) (.success { regs := [(d, (s.x a + s.x b) % s.cfg.modulus)] }))

/-- SUB (R122): x[D] <- (x[A] − x[B]) mod M; UF reports x[A] < x[B]. -/
def execSub (d a b : RegIdx) (s : State) : Host.Outcome State Fault Refusal :=
  .next (s.conclude (.sub d a b)
    (.success { uf := ufOfSub (s.x a) (s.x b), regs := [(d, subMod s.cfg.modulus (s.x a) (s.x b))] }))

/-- INC (R124): x[D] <- (x[D] + 1) mod M, in place. -/
def execInc (d : RegIdx) (s : State) : Host.Outcome State Fault Refusal :=
  .next (s.conclude (.inc d) (.success { regs := [(d, (s.x d + 1) % s.cfg.modulus)] }))

/-- DEC (R125): x[D] <- (x[D] − 1) mod M, in place; UF reports x[D] = 0. -/
def execDec (d : RegIdx) (s : State) : Host.Outcome State Fault Refusal :=
  .next (s.conclude (.dec d) (.success { uf := ufOfDec (s.x d), regs := [(d, subMod s.cfg.modulus (s.x d) 1)] }))

end Sys2Proof.Machine
end

