-- ==== Sys2Proof/Machine/Datapath.lean ====
section
/-!
DEFINITION. The word-level datapaths the spec gives beside the value rules: R111, R121, R123, R126, R135, R141, R143, R151, R153. POW and ISQRT run theirs; the
others are equal to the value rules the commands use, which are statements. Words are lists, word 0 first, of words of width `w`.
-/

namespace Sys2Proof.Machine

/-- One pass of the comparator over words most significant first (R111). -/
def scanWords : List Nat → List Nat → Order3
  | x :: xs, y :: ys => if x > y then .larger else if x < y then .smaller else scanWords xs ys
  | [], _ => .equal
  | _ :: _, [] => .equal

/-- The comparator datapath (R111): words from most significant to least significant, the first difference decides. -/
def scanCompare (a b : List Nat) : Order3 := scanWords a.reverse b.reverse

/-- The carry-propagate datapath (R121); the carry out of the last word is discarded. -/
def carryAdd (w carry : Nat) : List Nat → List Nat → List Nat
  | x :: xs, y :: ys => (x + y + carry) % 2 ^ w :: carryAdd w ((x + y + carry) / 2 ^ w) xs ys
  | [], _ => []
  | _ :: _, [] => []

/-- The borrow-propagate datapath (R123): the difference words and the borrow out of the last word, which is UF. -/
def borrowSub (w borrow : Nat) : List Nat → List Nat → List Nat × Nat
  | x :: xs, y :: ys =>
    if x < y + borrow then
      let r := borrowSub w 1 xs ys
      ((x + 2 ^ w - y - borrow) :: r.1, r.2)
    else
      let r := borrowSub w 0 xs ys
      ((x - y - borrow) :: r.1, r.2)
  | [], _ => ([], borrow)
  | _ :: _, [] => ([], borrow)

/-- The increment ripple (R126): stops at the first word that does not become 0. -/
def rippleInc (w : Nat) : List Nat → List Nat
  | [] => []
  | x :: xs => if (x + 1) % 2 ^ w ≠ 0 then (x + 1) % 2 ^ w :: xs else (x + 1) % 2 ^ w :: rippleInc w xs

/-- The decrement ripple (R126): stops at the first word that was not 0. -/
def rippleDec (w : Nat) : List Nat → List Nat
  | [] => []
  | x :: xs => if x ≠ 0 then (x - 1) :: xs else (2 ^ w - 1) :: rippleDec w xs

/-- Word `i` of a word list, 0 outside it (R135). -/
def wordAt (a : List Nat) (i : Int) : Nat := if i < 0 then 0 else a.getD i.toNat 0

/-- The barrel shifter, left (R135), with `ws = n div W` and `bs = n mod W`. -/
def barrelLeft (w n : Nat) (a : List Nat) : List Nat :=
  (List.range a.length).map fun j =>
    (wordAt a ((j : Int) - (n / w : Nat)) * 2 ^ (n % w)
      + wordAt a ((j : Int) - (n / w : Nat) - 1) / 2 ^ (w - n % w)) % 2 ^ w

/-- The barrel shifter, right (R135). -/
def barrelRight (w n : Nat) (a : List Nat) : List Nat :=
  (List.range a.length).map fun j =>
    (wordAt a ((j : Int) + (n / w : Nat)) / 2 ^ (n % w)
      + wordAt a ((j : Int) + (n / w : Nat) + 1) * 2 ^ (w - n % w)) % 2 ^ w

/-- The inner loop of the schoolbook multiplier (R141) for word `x` at offset `i`: products with the words `ys` from offset `j` on, those at offset `k` or above
dropped, added into the accumulator mod 2^(w·k). -/
def mulRow (w k i x : Nat) : Nat → List Nat → Nat → Nat
  | _, [], acc => acc
  | j, y :: ys, acc =>
    mulRow w k i x (j + 1) ys (if i + j < k then (acc + x * y * 2 ^ (w * (i + j))) % 2 ^ (w * k) else acc)

/-- The schoolbook multiplier (R141): the outer loop over the words of `a` from offset `i` on. -/
def schoolbookMul (w k : Nat) (b : List Nat) : Nat → List Nat → Nat → Nat
  | _, [], acc => acc
  | i, x :: xs, acc => schoolbookMul w k b (i + 1) xs (mulRow w k i x 0 b acc)

/-- The largest s ≤ `bound` with b·2^s ≤ r; 0 if there is none (R143). -/
def topShift (b r : Nat) : Nat → Nat
  | 0 => 0
  | s + 1 => if b * 2 ^ (s + 1) ≤ r then s + 1 else topShift b r s

/-- The long-division loop (R143) on quotient `q` and rest `r`, for at most `fuel` subtractions, with shifts up to `n`: gives the quotient and the
remainder. -/
def divideLoop (n b : Nat) : Nat → Nat → Nat → Nat × Nat
  | 0, q, r => (q, r)
  | fuel + 1, q, r =>
    if r < b then (q, r)
    else divideLoop n b fuel (q + 2 ^ topShift b r n) (r - b * 2 ^ topShift b r n)

/-- The long-division datapath (R143) for `n`-bit operands: at most `n` subtractions. -/
def longDivide (n a b : Nat) : Nat × Nat := divideLoop n b n 0 a

/-- Square-and-multiply (R151): `n` more bits of the exponent, least significant first. -/
def powLoop (m : Nat) : Nat → Nat → Nat → Nat → Nat
  | 0, _, _, r => r
  | n + 1, base, b, r => powLoop m n (base * base % m) (b / 2) (if b % 2 = 1 then r * base % m else r)

/-- The exponentiation datapath (R151) over all `n` bits of the exponent. -/
def squareMultiply (m n a b : Nat) : Nat := powLoop m n a b 1

/-- The square-root search (R153) on [lo, hi] with at most `fuel` halvings; it ends when lo = hi. -/
def rootSearch (a : Nat) : Nat → Nat → Nat → Nat
  | 0, lo, _ => lo
  | fuel + 1, lo, hi =>
    if lo < hi then
      if (lo + hi + 1) / 2 * ((lo + hi + 1) / 2) ≤ a then rootSearch a fuel ((lo + hi + 1) / 2) hi
      else rootSearch a fuel lo ((lo + hi + 1) / 2 - 1)
    else lo

/-- The square-root datapath (R153) for `n`-bit numbers: the range halves at each step, so n/2 steps suffice. -/
def bisectRoot (n a : Nat) : Nat := rootSearch a (n / 2) 0 (2 ^ (n / 2) - 1)

end Sys2Proof.Machine
end

