-- ==== Sys2Proof/Machine/Advanced.lean ====
section
/-!
DEFINITION. The advanced operations: POW (R150, R151), ISQRT (R152, R153), each by the datapath the spec gives.
-/

namespace Sys2Proof.Machine

/-- POW (R150): x[D] <- x[A]^x[B] mod M by square-and-multiply (R151). -/
def execPow (d a b : RegIdx) (s : State) : Host.Outcome State Fault Refusal :=
  .next (s.conclude (.pow d a b)
    (.success { regs := [(d, squareMultiply s.cfg.modulus s.cfg.totalBits (s.x a) (s.x b))] }))

/-- ISQRT (R152): x[D] <- the floor of the square root of x[A], by bisection (R153). -/
def execIsqrt (d a : RegIdx) (s : State) : Host.Outcome State Fault Refusal :=
  .next (s.conclude (.isqrt d a) (.success { regs := [(d, bisectRoot s.cfg.totalBits (s.x a))] }))

end Sys2Proof.Machine
end

