-- ==== Sys2Proof/Machine/Bitwise.lean ====
section
/-!
DEFINITION. The bitwise family: AND, OR, XOR (R130 to R132), LSHIFT, RSHIFT (R133, R134).
-/

namespace Sys2Proof.Machine

/-- Combine two registers word by word with no cross-word interaction (R130 to R132). -/
def combineWords (w : Nat) (f : Nat → Nat → Nat) (xs ys : List Nat) : Nat := valueOf w (List.zipWith f xs ys)

/-- (a · 2^n) mod 2^bits, without forming 2^n for the counts that shift everything out (R133). -/
def shiftLeftMod (bits a n : Nat) : Nat := if n < bits then a * 2 ^ n % 2 ^ bits else 0

/-- a div 2^n for a value of `bits` bits, without forming 2^n for the counts that shift everything out (R134). -/
def shiftRightMod (bits a n : Nat) : Nat := if n < bits then a / 2 ^ n else 0

/-- AND (R130), per word. -/
def execAnd (d a b : RegIdx) (s : State) : Host.Outcome State Fault Refusal :=
  .next (s.conclude (.and d a b)
    (.success { regs := [(d, combineWords s.cfg.wordBits (· &&& ·) (s.words a) (s.words b))] }))

/-- OR (R131), per word. -/
def execOr (d a b : RegIdx) (s : State) : Host.Outcome State Fault Refusal :=
  .next (s.conclude (.or d a b)
    (.success { regs := [(d, combineWords s.cfg.wordBits (· ||| ·) (s.words a) (s.words b))] }))

/-- XOR (R132), per word. -/
def execXor (d a b : RegIdx) (s : State) : Host.Outcome State Fault Refusal :=
  .next (s.conclude (.xor d a b)
    (.success { regs := [(d, combineWords s.cfg.wordBits (· ^^^ ·) (s.words a) (s.words b))] }))

/-- LSHIFT (R133): x[D] <- (x[A] · 2^ARG) mod M. -/
def execLshift (d a : RegIdx) (s : State) : Host.Outcome State Fault Refusal :=
  .next (s.conclude (.lshift d a) (.success { regs := [(d, shiftLeftMod s.cfg.totalBits (s.x a) s.argNat)] }))

/-- RSHIFT (R134): x[D] <- x[A] div 2^ARG. -/
def execRshift (d a : RegIdx) (s : State) : Host.Outcome State Fault Refusal :=
  .next (s.conclude (.rshift d a) (.success { regs := [(d, shiftRightMod s.cfg.totalBits (s.x a) s.argNat)] }))

end Sys2Proof.Machine
end

