-- ==== Sys2Proof/Machine/Comparator.lean ====
section
/-!
DEFINITION. The comparator commands: CMP, ISZERO (R110, R112).
-/

namespace Sys2Proof.Machine

/-- CMP (R110): RES <- 1, 0 or 2^64 − 1. -/
def execCmp (a b : RegIdx) (s : State) : Host.Outcome State Fault Refusal :=
  .next (s.conclude (.cmp a b) (.success { res := some (compareValues (s.x a) (s.x b)).code }))

/-- ISZERO (R112): RES <- 1 if x[A] = 0, else 0. -/
def execIszero (a : RegIdx) (s : State) : Host.Outcome State Fault Refusal :=
  .next (s.conclude (.iszero a) (.success { res := some (if s.x a = 0 then 1 else 0) }))

end Sys2Proof.Machine
end

