-- ==== Sys2Proof/Machine/Conversion.lean ====
section
/-!
DEFINITION. The conversion layer: the base-16 characters (R160), TOSTR (R161), FROMSTR (R162).
-/

namespace Sys2Proof.Machine

/-- code(d), the output byte of a digit value (R160). -/
def digitCode (d : Nat) : Byte := BitVec.ofNat 8 (if d ≤ 9 then 0x30 + d else 0x57 + d)

/-- digit(c), the value of an accepted input byte; `none` for a byte that is not a digit (R160). -/
def digitValue (c : Byte) : Option Nat :=
  if 0x30 ≤ c.toNat ∧ c.toNat ≤ 0x39 then some (c.toNat - 0x30)
  else if 0x61 ≤ c.toNat ∧ c.toNat ≤ 0x66 then some (c.toNat - 0x57)
  else if 0x41 ≤ c.toNat ∧ c.toNat ≤ 0x46 then some (c.toNat - 0x37)
  else none

/-- The base-16 digits of `v`, least significant first, without leading zeros and with one digit for 0, at most `fuel` of them. -/
def hexDigitsUp : Nat → Nat → List Nat
  | 0, _ => []
  | fuel + 1, v => v % 16 :: (if v / 16 = 0 then [] else hexDigitsUp fuel (v / 16))

/-- The rendering of `v` (R161): most significant nonzero digit first; "0" for 0. -/
def hexDigits (maxDigits v : Nat) : List Nat := (hexDigitsUp maxDigits v).reverse

/-- The parse of R162: the value so far is `v`; `none` at the first byte that is not a digit. -/
def parseDigits : List Byte → Nat → Option Nat
  | [], v => some v
  | c :: rest, v =>
    match digitValue c with
    | none => none
    | some d => parseDigits rest (16 * v + d)

/-- How TOSTR of value `a` ends for capacity `cap` (R161): the checks in the order of R172, then the digits, the terminator and RES. -/
def tostrCompletion (c : Config) (a cap : Nat) : Completion :=
  if cap > c.strbufBytes then .error .badLength
  else if (hexDigits c.maxDigits a).length + 1 > cap then .error .bufTooSmall
  else .success
    { res := some (BitVec.ofNat 64 (hexDigits c.maxDigits a).length)
      text := (hexDigits c.maxDigits a).map digitCode ++ [0] }

/-- How FROMSTR of length `len` ends when its bytes are `bytes` (R162): the checks in the order of R172, then the value. -/
def fromstrCompletion (c : Config) (d : RegIdx) (len : Nat) (bytes : List Byte) : Completion :=
  if len > c.strbufBytes then .error .badLength
  else if len > c.maxDigits then .error .strTooLong
  else
    match parseDigits bytes 0 with
    | none => .error .badDigit
    | some v => .success { regs := [(d, v)] }

/-- TOSTR (R161). -/
def execTostr (a : RegIdx) (s : State) : Host.Outcome State Fault Refusal :=
  .next (s.conclude (.tostr a) (tostrCompletion s.cfg (s.x a) s.argNat))

/-- FROMSTR (R162). -/
def execFromstr (d : RegIdx) (s : State) : Host.Outcome State Fault Refusal :=
  .next (s.conclude (.fromstr d) (fromstrCompletion s.cfg d s.argNat (s.strBytes s.parseLength)))

end Sys2Proof.Machine
end

