-- ==== Sys2Proof/Machine/Multiplicative.lean ====
section
/-!
DEFINITION. The multiplicative family: MUL (R140), DIVMOD, DIV, MOD (R142, R144, R145, R146).
-/

namespace Sys2Proof.Machine

/-- The division check of R142, R144 and R145, shared by the three commands (R146): DIV_BY_ZERO for b = 0, else the writes. -/
def divisionCompletion (b : Nat) (writes : List (RegIdx × Nat)) : Completion :=
  if b = 0 then .error .divByZero else .success { regs := writes }

/-- MUL (R140): x[D] <- (x[A] · x[B]) mod M. -/
def execMul (d a b : RegIdx) (s : State) : Host.Outcome State Fault Refusal :=
  .next (s.conclude (.mul d a b) (.success { regs := [(d, s.x a * s.x b % s.cfg.modulus)] }))

/-- DIVMOD (R142): x[D] <- x[A] div x[B], x[E] <- x[A] mod x[B]; DIV_BY_ZERO for x[B] = 0. -/
def execDivmod (d e a b : RegIdx) (s : State) : Host.Outcome State Fault Refusal :=
  .next (s.conclude (.divmod d e a b) (divisionCompletion (s.x b) [(d, s.x a / s.x b), (e, s.x a % s.x b)]))

/-- DIV (R144): the quotient of DIVMOD. -/
def execDiv (d a b : RegIdx) (s : State) : Host.Outcome State Fault Refusal :=
  .next (s.conclude (.div d a b) (divisionCompletion (s.x b) [(d, s.x a / s.x b)]))

/-- MOD (R145): the remainder of DIVMOD. -/
def execMod (d a b : RegIdx) (s : State) : Host.Outcome State Fault Refusal :=
  .next (s.conclude (.mod d a b) (divisionCompletion (s.x b) [(d, s.x a % s.x b)]))

end Sys2Proof.Machine
end

