-- ==== Sys2Proof/Machine/Representation.lean ====
section
/-!
DEFINITION. The representation layer: INIT, FROMINT, TOINT, ASSIGN (R100 to R103).
-/

namespace Sys2Proof.Machine

/-- INIT (R100): x[D] <- 0. -/
def execInit (d : RegIdx) (s : State) : Host.Outcome State Fault Refusal :=
  .next (s.conclude (.init d) (.success { regs := [(d, 0)] }))

/-- FROMINT (R101): x[D] <- ARG mod M. -/
def execFromint (d : RegIdx) (s : State) : Host.Outcome State Fault Refusal :=
  .next (s.conclude (.fromint d) (.success { regs := [(d, s.argNat % s.cfg.modulus)] }))

/-- TOINT (R102): RES <- x[A] mod 2^64. -/
def execToint (a : RegIdx) (s : State) : Host.Outcome State Fault Refusal :=
  .next (s.conclude (.toint a) (.success { res := some (BitVec.ofNat 64 (s.x a)) }))

/-- ASSIGN (R103): x[D] <- x[A]; D = A is defined and leaves the value. -/
def execAssign (d a : RegIdx) (s : State) : Host.Outcome State Fault Refusal :=
  .next (s.conclude (.assign d a) (.success { regs := [(d, s.x a)] }))

end Sys2Proof.Machine
end

