-- ==== Sys2Proof/Machine/Dispatch.lean ====
section
/-!
DEFINITION. The dispatch of a legal command to its meaning (R77): one arm per row of R74.
-/

namespace Sys2Proof.Machine

def exec (i : Instr) (s : State) : Host.Outcome State Fault Refusal :=
  match i with
  | .add d a b => Sys2Proof.Machine.execAdd d a b s
  | .sub d a b => Sys2Proof.Machine.execSub d a b s
  | .mul d a b => Sys2Proof.Machine.execMul d a b s
  | .div d a b => Sys2Proof.Machine.execDiv d a b s
  | .and d a b => Sys2Proof.Machine.execAnd d a b s
  | .or d a b => Sys2Proof.Machine.execOr d a b s
  | .xor d a b => Sys2Proof.Machine.execXor d a b s
  | .pow d a b => Sys2Proof.Machine.execPow d a b s
  | .mod d a b => Sys2Proof.Machine.execMod d a b s
  | .rshift d a => Sys2Proof.Machine.execRshift d a s
  | .lshift d a => Sys2Proof.Machine.execLshift d a s
  | .isqrt d a => Sys2Proof.Machine.execIsqrt d a s
  | .divmod d e a b => Sys2Proof.Machine.execDivmod d e a b s
  | .inc d => Sys2Proof.Machine.execInc d s
  | .dec d => Sys2Proof.Machine.execDec d s
  | .cmp a b => Sys2Proof.Machine.execCmp a b s
  | .iszero a => Sys2Proof.Machine.execIszero a s
  | .init d => Sys2Proof.Machine.execInit d s
  | .fromint d => Sys2Proof.Machine.execFromint d s
  | .toint a => Sys2Proof.Machine.execToint a s
  | .assign d a => Sys2Proof.Machine.execAssign d a s
  | .tostr a => Sys2Proof.Machine.execTostr a s
  | .fromstr d => Sys2Proof.Machine.execFromstr d s

end Sys2Proof.Machine
end

