-- ==== Sys2Proof/Machine/Window.lean ====
section
/-!
DEFINITION. The host's register window (R50 to R56): the address map, and what a read and a write of each slot do while the block is idle.
-/

namespace Sys2Proof.Machine

/-- A slot of the window (R35, R51). -/
inductive Slot where
  | cmd | status | argLo | argHi | resLo | resHi | config | sbufsz
  /-- Word `j` of register `r` (R52); `j` may be K or above. -/
  | bigWord (r : RegIdx) (j : Nat)
  /-- Byte `j` of STRBUF (R53); `j` may be STRBUF_BYTES or above. -/
  | strByte (j : Nat)
  /-- A reserved slot (R54). -/
  | reserved
  deriving DecidableEq, Repr

/-- The eight control slots in the order of their offsets (R35). -/
def controlSlot (k : Nat) : Slot :=
  match k with
  | 0 => .cmd
  | 1 => .status
  | 2 => .argLo
  | 3 => .argHi
  | 4 => .resLo
  | 5 => .resHi
  | 6 => .config
  | 7 => .sbufsz
  | _ => .reserved

/-- The address map of R51 at an offset that is a multiple of 4. -/
def slotAt (off : Nat) : Slot :=
  if off < 0x20 then controlSlot (off / 4)
  else if off < 0x10000 then .reserved
  else if off < 0x20000 then .bigWord (Fin.ofNat 16 (off / 0x1000)) (off / 4 % 0x400)
  else if off < 0x30000 then .strByte (off / 4 % 0x4000)
  else .reserved

/-- The offset of a host address inside the window at BASE (R50, R51); `none` outside the window's 2^20 bytes. It looks at the start address of an access alone; an access that
starts below the window and reaches into it is `reachesWindow`'s. -/
def windowOffset (c : Config) (addr : Nat) : Option Nat :=
  if c.base ≤ addr ∧ addr < c.base + 2 ^ 20 then some (addr - c.base) else none

/-- An access of `width` bits that starts below BASE and whose last byte lies at BASE or above: wide or misaligned, it reaches into the window. The spec does not speak of such an
access. DEDUCED from R55: what reaches the window is then no aligned 32-bit access, so it is treated as R55's undefined access (log entry 8, safe). -/
def reachesWindow (c : Config) (width addr : Nat) : Bool := addr < c.base && c.base < addr + (width + 7) / 8

/-- The access the window supports: 32 bits at a multiple of 4 (R55). -/
def accessDefined (width off : Nat) : Bool := width == 32 && off % 4 == 0

/-- What a read of a slot returns (R26, R27, R29, R33, R34, R52, R53, R54); an unwritten word or byte reads as a free value (R25). -/
def State.slotValue (s : State) : Slot → HostWord
  | .cmd => 0
  | .status => s.statusWord
  | .argLo => BitVec.ofNat 32 s.arg.toNat
  | .argHi => BitVec.ofNat 32 (s.arg.toNat / 2 ^ 32)
  | .resLo => BitVec.ofNat 32 s.res.toNat
  | .resHi => BitVec.ofNat 32 (s.res.toNat / 2 ^ 32)
  | .config => s.configWord
  | .sbufsz => s.sbufszWord
  | .bigWord r j => if j < s.cfg.wordCount then BitVec.ofNat 32 ((s.words r).getD j 0) else 0
  | .strByte j => if j < s.cfg.strbufBytes then (s.strByte j).setWidth 32 else 0
  | .reserved => 0

/-- A read returns `v` to the host. Each read is a draw of its own (R13). -/
def State.reply (s : State) (v : HostWord) : State :=
  { s with replies := v :: s.replies, draws := s.draws + 1 }

/-- What a write to a slot other than CMD does (R26, R27, R29, R34, R52, R53, R54). -/
def State.writeSlot (s : State) (slot : Slot) (data : HostWord) : State :=
  match slot with
  | .cmd => s
  | .status => s
  | .argLo => s.writeArgLo data
  | .argHi => s.writeArgHi data
  | .resLo => s
  | .resHi => s
  | .config => s
  | .sbufsz => s
  | .bigWord r j => if j < s.cfg.wordCount then s.writeWord r j data.toNat else s
  | .strByte j => if j < s.cfg.strbufBytes then s.writeBytes j [data.setWidth 8] else s
  | .reserved => s

/-- The slots a host may read while BUSY = 1 (R204). -/
def Slot.readableWhileBusy : Slot → Bool
  | .status => true
  | .config => true
  | .sbufsz => true
  | .cmd => false
  | .argLo => false
  | .argHi => false
  | .resLo => false
  | .resHi => false
  | .bigWord _ _ => false
  | .strByte _ => false
  | .reserved => false

end Sys2Proof.Machine
end

