-- ==== Sys2Proof/Machine/Bus.lean ====
section
/-!
DEFINITION. What one host event does to the block: reads, the CMD write that starts a command (R33, R77), other writes, the `poll` loop (R81), the reset input (R200), and
a clock cycle with no host event (R188, R209).
-/

namespace Sys2Proof.Machine

/-- A CMD write while BUSY = 0 (R77): decode, then execute the command, or complete with ILLEGAL_CMD. -/
def cmdWrite (w : HostWord) (s : State) : Host.Outcome State Fault Refusal :=
  match decode w with
  | none => .next (s.concludeIllegal w)
  | some i => exec i s

/-- The block just before a STATUS read is answered (R211): of a command in flight, one more BUSY = 1 read is used up, or, when none is left, the command completes. -/
def State.advance (s : State) : State :=
  { s with
    inflight :=
      match s.inflight with
      | none => none
      | some f => if f.busyReads = 0 then none else some { f with busyReads := f.busyReads - 1 } }

/-- A read of STATUS: allowed at any time (R204). -/
def State.readStatus (s : State) : State := s.advance.reply s.advance.statusWord

/-- A 32-bit read of a slot (R58, R204). -/
def readSlot (slot : Slot) (s : State) : Host.Outcome State Fault Refusal :=
  if s.busy && !slot.readableWhileBusy then .fault .busyHazard
  else if slot = .status then .next s.readStatus
  else .next (s.reply (s.slotValue slot))

/-- A 32-bit write of a slot (R58, R204, R206). -/
def writeSlot (slot : Slot) (data : HostWord) (s : State) : Host.Outcome State Fault Refusal :=
  if s.busy then .fault .busyHazard
  else if slot = .cmd then cmdWrite data s
  else .next (s.writeSlot slot data)

/-- What an access that does not start in the window does: it leaves the block alone (DEDUCED from R50 and R51, log entry 8), unless it reaches into the window from below. -/
def accessOutside (width addr : Nat) (s : State) : Host.Outcome State Fault Refusal :=
  if reachesWindow s.cfg width addr then .fault .badAccess else .next s

/-- A read of `width` bits at a host address. -/
def hostRead (width addr : Nat) (s : State) : Host.Outcome State Fault Refusal :=
  match windowOffset s.cfg addr with
  | none => accessOutside width addr s
  | some off => if accessDefined width off then readSlot (slotAt off) s else .fault .badAccess

/-- A write of `width` bits at a host address. -/
def hostWrite (width addr : Nat) (data : HostWord) (s : State) : Host.Outcome State Fault Refusal :=
  match windowOffset s.cfg addr with
  | none => accessOutside width addr s
  | some off => if accessDefined width off then writeSlot (slotAt off) data s else .fault .badAccess

/-- One turn of the `poll` loop (R81): read STATUS; while BUSY reads 1 the loop stays ahead of the host's later events. -/
def hostPoll (s : State) : Host.Outcome State Fault Refusal :=
  .next { s.readStatus with bus := if s.advance.busy then .poll :: s.bus else s.bus }

/-- The reset input (R200, R201). What the host still sends and what it has read are the host's own; the count of draws goes on, so that no free value is drawn twice. -/
def State.hardReset (s : State) : State :=
  { State.resetWith s.cfg with bus := s.bus, replies := s.replies, draws := s.draws }

/-- One host event. -/
def hostEvent (e : HostEvent) (s : State) : Host.Outcome State Fault Refusal :=
  match e with
  | .read width addr => hostRead width addr s
  | .write width addr data => hostWrite width addr data s
  | .poll => hostPoll s
  | .reset => .next s.hardReset

/-- A clock cycle with no host event: a command in flight comes one cycle nearer its completion (R209); an idle block does not change (R188). -/
def State.cycle (s : State) : State :=
  { s with
    inflight :=
      match s.inflight with
      | none => none
      | some f => if f.cycles ≤ 1 then none else some { f with cycles := f.cycles - 1 } }

/-- One step of the machine: a configuration that is not this hardware is refused (R7); otherwise the next host event is served, in issue order (R59), or a clock cycle
passes. -/
def machineStep (s : State) : Host.Outcome State Fault Refusal :=
  if s.cfg.Wf then
    match s.bus with
    | [] => .next s.cycle
    | e :: rest => hostEvent e { s with bus := rest }
  else .refused .badConfig

/-- The host event that writes a command word to CMD (R33, R81). -/
def cmdEvent (c : Config) (w : HostWord) : HostEvent := .write 32 c.base w

/-- The command the next step is about to execute, if it is one (R77): the next event is a 32-bit write of a legal word to CMD while BUSY = 0. -/
def State.nextCommand (s : State) : Option Instr :=
  match s.bus with
  | .write width addr data :: _ =>
    match windowOffset s.cfg addr with
    | some off =>
      if s.cfg.Wf ∧ s.busy = false ∧ accessDefined width off = true ∧ slotAt off = .cmd then decode data else none
    | none => none
  | .read _ _ :: _ => none
  | .poll :: _ => none
  | .reset :: _ => none
  | [] => none

end Sys2Proof.Machine
end

