-- ==== Sys2Proof/Machine/Step.lean ====
section
/-!
DEFINITION. The step of the machine, and how a command is placed where the next step runs it.
-/

namespace Sys2Proof.Machine

/-- One step (R59, R77). -/
def step (s : State) : Host.Outcome State Fault Refusal := machineStep s

/-- `s` with a host write of the command word `w` (its low `nbits` bits) to CMD as the next host event and with no command in flight, so that the next step runs exactly that
command. A command word does not stand in any memory of the block: the host sends it (R36, R62; log entry 7). -/
def State.withFetchWord (s : State) (nbits w : Nat) : State :=
  { s with bus := cmdEvent s.cfg (BitVec.ofNat 32 (w % 2 ^ nbits)) :: s.bus, inflight := none }

end Sys2Proof.Machine
end

