-- ==== Sys2Proof/Machine/Assembly.lean ====
section
/-!
DEFINITION. Assembler text (R81) and the host's command lines and pseudo-instructions as lists of host events (R81, R82).
-/

namespace Sys2Proof.Machine

/-- A register as written in assembly: r0 to r15 (R81). -/
def regName (r : RegIdx) : String := "r" ++ toString r.val

/-- Operands, comma separated (R81). -/
def operandList (rs : List RegIdx) : String := String.intercalate ", " (rs.map regName)

/-- The assembly line of a command (R81, R71). -/
def assemblyLine : Instr → String
  | .add d a b => "add " ++ operandList [d, a, b]
  | .sub d a b => "sub " ++ operandList [d, a, b]
  | .mul d a b => "mul " ++ operandList [d, a, b]
  | .div d a b => "div " ++ operandList [d, a, b]
  | .and d a b => "and " ++ operandList [d, a, b]
  | .or d a b => "or " ++ operandList [d, a, b]
  | .xor d a b => "xor " ++ operandList [d, a, b]
  | .pow d a b => "pow " ++ operandList [d, a, b]
  | .mod d a b => "mod " ++ operandList [d, a, b]
  | .rshift d a => "rshift " ++ operandList [d, a]
  | .lshift d a => "lshift " ++ operandList [d, a]
  | .isqrt d a => "isqrt " ++ operandList [d, a]
  | .divmod d e a b => "divmod " ++ operandList [d, e, a, b]
  | .inc d => "inc " ++ operandList [d]
  | .dec d => "dec " ++ operandList [d]
  | .cmp a b => "cmp " ++ operandList [a, b]
  | .iszero a => "iszero " ++ operandList [a]
  | .init d => "init " ++ operandList [d]
  | .fromint d => "fromint " ++ operandList [d]
  | .toint a => "toint " ++ operandList [a]
  | .assign d a => "assign " ++ operandList [d, a]
  | .tostr a => "tostr " ++ operandList [a]
  | .fromstr d => "fromstr " ++ operandList [d]

/-- The window offset of a slot (R35, R52, R53, R81). A reserved slot has no name; its offset here is one reserved offset. -/
def slotOffset : Slot → Nat
  | .cmd => 0x0
  | .status => 0x4
  | .argLo => 0x8
  | .argHi => 0xC
  | .resLo => 0x10
  | .resHi => 0x14
  | .config => 0x18
  | .sbufsz => 0x1C
  | .bigWord r j => 0x10000 + 0x1000 * r.val + 4 * j
  | .strByte j => 0x20000 + 4 * j
  | .reserved => 0x20

/-- `wr NAME, v` (R81). -/
def wr (c : Config) (slot : Slot) (v : HostWord) : HostEvent := .write 32 (c.base + slotOffset slot) v

/-- `rd NAME` (R81). -/
def rd (c : Config) (slot : Slot) : HostEvent := .read 32 (c.base + slotOffset slot)

/-- A command line (R81): write its encoding to CMD, then poll. -/
def commandLine (c : Config) (i : Instr) : List HostEvent := [wr c .cmd (encode i), .poll]

/-- The pseudo-instructions (R82). -/
inductive Pseudo where
  | setarg (v : Scalar)
  | li (d : RegIdx) (v : Scalar)
  | lshifti (d a : RegIdx) (n : Scalar)
  | rshifti (d a : RegIdx) (n : Scalar)
  | mov (d a : RegIdx)
  | clr (d : RegIdx)
  /-- The string as its ASCII bytes (R160). -/
  | putstr (text : List Byte)
  | lds (d : RegIdx) (text : List Byte)
  | sts (a : RegIdx) (cap : Scalar)
  deriving DecidableEq, Repr

/-- `setarg v` (R82). -/
def setargEvents (c : Config) (v : Scalar) : List HostEvent :=
  [wr c .argLo (BitVec.ofNat 32 (v.toNat % 2 ^ 32)), wr c .argHi (BitVec.ofNat 32 (v.toNat / 2 ^ 32))]

/-- `putstr` from byte `j` on (R82). -/
def putstrEvents (c : Config) : Nat → List Byte → List HostEvent
  | _, [] => []
  | j, b :: rest => wr c (.strByte j) (b.setWidth 32) :: putstrEvents c (j + 1) rest

/-- The expansion of a pseudo-instruction (R82); it has no meaning other than this. -/
def expand (c : Config) : Pseudo → List HostEvent
  | .setarg v => setargEvents c v
  | .li d v => setargEvents c v ++ commandLine c (.fromint d)
  | .lshifti d a n => setargEvents c n ++ commandLine c (.lshift d a)
  | .rshifti d a n => setargEvents c n ++ commandLine c (.rshift d a)
  | .mov d a => commandLine c (.assign d a)
  | .clr d => commandLine c (.init d)
  | .putstr text => putstrEvents c 0 text
  | .lds d text => putstrEvents c 0 text ++ setargEvents c (BitVec.ofNat 64 text.length) ++ commandLine c (.fromstr d)
  | .sts a cap => setargEvents c cap ++ commandLine c (.tostr a)

end Sys2Proof.Machine
end

