-- ==== Sys2Proof/Safety.lean ====
section
/-!
DEFINITION. What claims are phrased with: the invariant of the machine, what a command leaves unchanged, and the strict machine of R25, which stops before a command that
reads an unwritten word or byte.
-/

namespace Sys2Proof.Machine

/-- Every register has K words, each in [0, 2^W − 1] (R21, R23, R24). -/
abbrev State.RegsWf (s : State) : Prop :=
  ∀ r : RegIdx, s.regs[r].length = s.cfg.wordCount ∧ ∀ c ∈ s.regs[r], c.val < 2 ^ s.cfg.wordBits

/-- STRBUF is canonical and holds indices below STRBUF_BYTES only (R28). -/
abbrev State.StrbufWf (s : State) : Prop := Memory.wf s.strbuf ∧ ∀ c ∈ s.strbuf, c.1 < s.cfg.strbufBytes

/-- STATUS after an error: UF is 0 (R171) and the newest entry of the error log is that error (R182); the log holds errors only. -/
abbrev State.StatusWf (s : State) : Prop :=
  (s.err ≠ .noError → s.uf = false ∧ s.errLog.head?.map (·.code) = some s.err) ∧ ∀ e ∈ s.errLog, e.code ≠ .noError

/-- A command in flight has between 1 and LAT_MAX cycles left (R209), and the STATUS it shows is that of a completed command. -/
abbrev InFlight.Wf (c : Config) (f : InFlight) : Prop :=
  1 ≤ f.cycles ∧ f.cycles ≤ c.latMax ∧ (f.shownErr ≠ .noError → f.shownUf = false)

/-- The command in flight, if there is one, is well formed. -/
abbrev State.InFlightWf (s : State) : Prop := ∀ f ∈ s.inflight, f.Wf s.cfg

/-- The invariant of the machine: a legal configuration (R7), and the parts above. -/
abbrev State.Inv (s : State) : Prop := s.cfg.Wf ∧ s.RegsWf ∧ s.StrbufWf ∧ s.StatusWf ∧ s.InFlightWf

/-- What every command leaves unchanged: the configuration, ARG, the host's side, and every register outside `dsts` (R24, R26, R80). -/
def SameOutside (dsts : List RegIdx) (s t : State) : Prop :=
  t.cfg = s.cfg ∧ t.arg = s.arg ∧ t.bus = s.bus ∧ t.replies = s.replies ∧ ∀ r, r ∉ dsts → t.regs[r] = s.regs[r]

/-- Every byte of STRBUF is unchanged, its written status included. -/
def SameStrbuf (s t : State) : Prop := ∀ j, Memory.read? t.strbuf j = Memory.read? s.strbuf j

/-- `word` is in flight in `t` with the snapshot `snap`, started in `s` (R30, R38): BUSY = 1, and until it completes STATUS shows the UF and ERR `s` had. -/
def Started (word : HostWord) (snap : Option Snapshot) (s t : State) : Prop :=
  ∃ f, t.inflight = some f ∧ f.word = word ∧ f.snapshot = snap ∧ f.shownUf = s.uf ∧ f.shownErr = s.err

/-- `t` is a state after the successful completion of `i` in `s` with UF = `uf` (R12, R31, R32), as far as every command agrees: ERR = 0, no entry in the error log, the
command in flight, nothing changed outside its destinations. -/
def Succeeded (i : Instr) (uf : Bool) (s t : State) : Prop :=
  t.uf = uf ∧ t.err = .noError ∧ t.errLog = s.errLog ∧ Started (encode i) (some (s.snapshot i)) s t
    ∧ SameOutside (destinations i) s t

/-- `t` is the state after the command word `word` completed with Error(code) in `s` (R171): STATUS and the error log say so, and no register, no byte of STRBUF, not
ARG and not RES is changed. -/
def Failed (word : HostWord) (snap : Option Snapshot) (code : ErrCode) (s t : State) : Prop :=
  t.uf = false ∧ t.err = code ∧ t.errLog = { word := word, code := code } :: s.errLog ∧ Started word snap s t
    ∧ SameOutside [] s t ∧ SameStrbuf s t ∧ t.res = s.res

/-- Register `d` holds `v` in every word, all of them written (R24, R25). -/
def Holds (t : State) (d : RegIdx) (v : Nat) : Prop := t.regWritten d = true ∧ t.x d = v

/-- `i` completes successfully with UF = `uf`: register `d` receives `v` (unless the command is aliased, R80), RES and STRBUF are unchanged. -/
def WritesRegister (i : Instr) (uf : Bool) (d : RegIdx) (v : Nat) (s : State) : Prop :=
  ∃ t, exec i s = .next t ∧ Succeeded i uf s t ∧ t.res = s.res ∧ SameStrbuf s t ∧ (aliased i = false → Holds t d v)

/-- `i` completes successfully with UF = 0 and RES = `v`; STRBUF is unchanged. -/
def WritesResult (i : Instr) (v : Nat) (s : State) : Prop :=
  ∃ t, exec i s = .next t ∧ Succeeded i false s t ∧ SameStrbuf s t ∧ t.res.toNat = v

/-- `i` completes with Error(code) (R171). -/
def FailsWith (i : Instr) (code : ErrCode) (s : State) : Prop :=
  ∃ t, exec i s = .next t ∧ Failed (encode i) (some (s.snapshot i)) code s t

/-- The command word of `i` has opcode `opc` and the fields D, A, B, E given; every other bit is 0 (R70, R71). -/
def EncodedAs (i : Instr) (opc d a b e : Nat) : Prop :=
  (encode i).toNat = opc + 2 ^ 8 * d + 2 ^ 12 * a + 2 ^ 16 * b + 2 ^ 20 * e

/-- The words of two registers or values that a datapath takes: equally many, each below 2^w (R23). -/
def WordsOk (w : Nat) (xs ys : List Nat) : Prop :=
  xs.length = ys.length ∧ (∀ x ∈ xs, x < 2 ^ w) ∧ ∀ y ∈ ys, y < 2 ^ w

/-- The machine with R25's treatment of unwritten operands: a command whose operand snapshot includes an unwritten word or byte stops with a fault before any effect. Every
other step is the machine's. -/
def strictStep (s : State) : Host.Outcome State Fault Refusal :=
  match s.nextCommand with
  | some i =>
    if ({ s with bus := s.bus.tail } : State).snapshotUnwritten i then .fault .unwrittenOperand else step s
  | none => step s

/-- `n` steps, stopping at the first fault or refusal. -/
def runSteps : Nat → State → Host.Outcome State Fault Refusal
  | 0, s => .next s
  | n + 1, s =>
    match step s with
    | .next t => runSteps n t
    | .fault f => .fault f
    | .refused r => .refused r

end Sys2Proof.Machine
end

