-- ==== Sys2Proof/Certificates/Slice0/Obligations.lean ====
section
/-!
DEFINITION. The statements about the block, from the numbered rules of spec/. Each holds for every configuration R6 and R7 allow with LAT_MAX ≥ 1 (log entry 1), since the configuration is part of the state; where a premise says
`s.Inv`, that invariant is itself the subject of ResetMeetsInvariant and StepKeepsInvariant.
-/

open Sys2Proof Sys2Proof.Machine

/-! ### Encoding -/

/-- Encoding loses nothing: every command, with every operand, decodes from its own word (R70, R71, R74). -/
def Obligations.DecodeInvertsEncode : Prop := ∀ i : Instr, decode (encode i) = some i

/-- Each word has one meaning: a word that decodes is the word of its command (R74, R76). -/
def Obligations.EncodeInvertsDecode : Prop := ∀ (w : HostWord) (i : Instr), decode w = some i → encode i = w

/-- At most one row of the opcode table selects a word (R77: "every 32-bit word either selects exactly one row or is illegal"). -/
def Obligations.AtMostOneRowSelects : Prop :=
  ∀ w : HostWord, (opcodeRows.filter fun r => r.selects w).length ≤ 1

/-- R75 and R173: a word matches no row exactly when its opcode is undefined, a reserved bit is set or an unused register field is not zero; written to CMD it completes with
ILLEGAL_CMD and has no other effect. -/
def Obligations.IllegalWordCompletesWithError : Prop :=
  ∀ w : HostWord, (decode w = none ↔ wordLegal w = false) ∧
    ∀ s : State, decode w = none → ∃ t, cmdWrite w s = .next t ∧ Failed w none .illegalCmd s t

/-- R83: the encoding examples of the spec. -/
def Obligations.EncodingExamplesDecode : Prop :=
  decode 0x00021300 = some (.add 3 1 2) ∧ decode 0x0042130C = some (.divmod 3 4 1 2) ∧ decode 0x00000112 = some (.fromint 1) ∧
  decode 0x00021307 = some (.pow 3 1 2) ∧ decode 0x00003013 = some (.toint 3) ∧ decode 0x0000120A = some (.lshift 2 1) ∧
  decode 0x0002100F = some (.cmp 1 2) ∧ decode 0x00000000 = some (.add 0 0 0) ∧ aliased (.add 0 0 0) = true ∧
  decode 0x00000017 = none ∧ decode 0x00010013 = none

/-- A step runs the decoded command (R33, R59, R77): when the next host event is a 32-bit write of a legal word to CMD while BUSY = 0, the step is `exec` of the command on the state
without that event; an illegal word is `cmdWrite`'s, of which IllegalWordCompletesWithError speaks. `withFetchWord` places exactly such an event. -/
def Obligations.StepRunsDecodedCommand : Prop :=
  (∀ (s : State) (rest : List HostEvent) (w : HostWord) (i : Instr),
    s.cfg.Wf → s.busy = false → s.bus = cmdEvent s.cfg w :: rest → decode w = some i →
      step s = exec i { s with bus := rest }) ∧
  (∀ (s : State) (rest : List HostEvent) (w : HostWord),
    s.cfg.Wf → s.busy = false → s.bus = cmdEvent s.cfg w :: rest → decode w = none →
      step s = cmdWrite w { s with bus := rest }) ∧
  ∀ (s : State) (w : Nat) (i : Instr), s.cfg.Wf → decodeTableWord 32 w = some i →
    step (s.withFetchWord 32 w) = exec i { s with inflight := none }

/-! ### Reset and invariant -/

/-- R201: the reset state, in every configuration. -/
def Obligations.ResetStateValues : Prop :=
  ∀ c : Config,
    let s := State.resetWith c
    s.statusWord = 0 ∧ s.busy = false ∧ s.uf = false ∧ s.err = .noError ∧ s.arg = 0 ∧ s.res = 0 ∧
    (∀ r : RegIdx, s.regs[r].length = c.wordCount ∧ ∀ x ∈ s.regs[r], x.written = false) ∧ (∀ j, s.byteWritten j = false) ∧
    s.cfg = c ∧ s.errLog = []

/-- The invariant holds at reset, in every legal configuration and in the reference one. -/
def Obligations.ResetMeetsInvariant : Prop :=
  (∀ c : Config, c.Wf → (State.resetWith c).Inv) ∧ State.reset.Inv

/-- Every step from a state that meets the invariant leads to one that meets it: registers keep K words in range (R23, R24), STRBUF stays canonical and in bounds (R28), an error
leaves UF = 0 and stands in the log (R171, R182), a command in flight has at most LAT_MAX cycles left (R209). -/
def Obligations.StepKeepsInvariant : Prop := ∀ s t : State, s.Inv → step s = .next t → t.Inv

/-- R200: asserted at any time, a command in flight included, the reset input gives the reset state; only the host's events and replies and the count of draws go on. -/
def Obligations.ResetInputResets : Prop :=
  ∀ (s : State) (rest : List HostEvent), s.cfg.Wf → s.bus = .reset :: rest →
    step s = .next { State.resetWith s.cfg with bus := rest, replies := s.replies, draws := s.draws }

/-- R34: CONFIG and SBUFSZ stand at 0x18 and 0x1C, a host read of them returns the constants of the configuration, whatever BUSY is (R204), a host write is ignored, and no step changes
the configuration. -/
def Obligations.ConfigurationIsConstant : Prop :=
  slotAt 0x18 = .config ∧ slotAt 0x1C = .sbufsz ∧
  (∀ s : State, s.cfg.Wf →
    bitsOf (s.slotValue .config) 7 0 = s.cfg.wordBits ∧ bitsOf (s.slotValue .config) 23 8 = s.cfg.wordCount ∧
    bitsOf (s.slotValue .config) 31 24 = 16 ∧ bitsOf (s.slotValue .sbufsz) 15 0 = s.cfg.strbufBytes ∧
    bitsOf (s.slotValue .sbufsz) 31 16 = 0) ∧
  (∀ (s : State) (rest : List HostEvent), s.cfg.Wf →
    (s.bus = .read 32 (s.cfg.base + 0x18) :: rest →
      step s = .next { s with bus := rest, replies := s.slotValue .config :: s.replies, draws := s.draws + 1 }) ∧
    (s.bus = .read 32 (s.cfg.base + 0x1C) :: rest →
      step s = .next { s with bus := rest, replies := s.slotValue .sbufsz :: s.replies, draws := s.draws + 1 })) ∧
  (∀ (s : State) (rest : List HostEvent) (v : HostWord), s.cfg.Wf → s.busy = false →
    s.bus = .write 32 (s.cfg.base + 0x18) v :: rest ∨ s.bus = .write 32 (s.cfg.base + 0x1C) v :: rest →
      step s = .next { s with bus := rest }) ∧
  ∀ s t : State, step s = .next t → t.cfg = s.cfg

/-! ### Representation and comparator -/

/-- R100: INIT. -/
def Obligations.InitWritesZero : Prop :=
  ∀ (s : State) (d : RegIdx), s.cfg.Wf → WritesRegister (.init d) false d 0 s ∧ aliased (.init d) = false ∧ EncodedAs (.init d) 17 d 0 0 0

/-- R101: FROMINT, by value and by word. -/
def Obligations.FromintLoadsArg : Prop :=
  ∀ (s : State) (d : RegIdx), s.cfg.Wf → EncodedAs (.fromint d) 18 d 0 0 0 ∧
    ∃ t, exec (.fromint d) s = .next t ∧ Succeeded (.fromint d) false s t ∧ t.res = s.res ∧ SameStrbuf s t ∧
      Holds t d (s.arg.toNat % 2 ^ s.cfg.totalBits) ∧
      (∀ j < s.cfg.wordCount,
        (t.words d).getD j 0 = s.arg.toNat / 2 ^ (s.cfg.wordBits * j) % 2 ^ s.cfg.wordBits) ∧
      ∀ j < s.cfg.wordCount, 64 ≤ s.cfg.wordBits * j → (t.words d).getD j 0 = 0

/-- R102: TOINT. -/
def Obligations.TointTruncates : Prop :=
  ∀ (s : State) (a : RegIdx), WritesResult (.toint a) (s.x a % 2 ^ 64) s ∧ EncodedAs (.toint a) 19 0 a 0 0

/-- R103: ASSIGN copies, D = A included, which is not aliased and leaves the value. -/
def Obligations.AssignCopies : Prop :=
  ∀ (s : State) (d a : RegIdx), s.Inv →
    WritesRegister (.assign d a) false d (s.x a) s ∧ aliased (.assign d a) = false ∧ EncodedAs (.assign d a) 20 d a 0 0

/-- R110: CMP. -/
def Obligations.CmpIsThreeWay : Prop :=
  ∀ (s : State) (a b : RegIdx),
    WritesResult (.cmp a b) (if s.x a > s.x b then 1 else if s.x a = s.x b then 0 else 2 ^ 64 - 1) s ∧
    EncodedAs (.cmp a b) 15 0 a b 0

/-- R112: ISZERO; RES = 1 exactly when every word is 0. -/
def Obligations.IszeroTestsEveryWord : Prop :=
  ∀ (s : State) (a : RegIdx),
    WritesResult (.iszero a) (if s.x a = 0 then 1 else 0) s ∧ (s.x a = 0 ↔ ∀ x ∈ s.words a, x = 0) ∧
    EncodedAs (.iszero a) 16 0 a 0 0

/-- R111: the comparator's scan from the most significant word gives the order of the values. -/
def Obligations.ScanComparesValues : Prop :=
  ∀ (w : Nat) (xs ys : List Nat), WordsOk w xs ys → scanCompare xs ys = compareValues (valueOf w xs) (valueOf w ys)

/-! ### Additive family -/

/-- R120: ADD. -/
def Obligations.AddIsSumModM : Prop :=
  ∀ (s : State) (d a b : RegIdx), s.cfg.Wf →
    WritesRegister (.add d a b) false d ((s.x a + s.x b) % 2 ^ s.cfg.totalBits) s ∧
    (aliased (.add d a b) = true ↔ d = a ∨ d = b) ∧ EncodedAs (.add d a b) 0 d a b 0

/-- R122: SUB, the wrapped difference, and UF exactly when x[A] < x[B]. -/
def Obligations.SubWrapsAndReports : Prop :=
  ∀ (s : State) (d a b : RegIdx), s.Inv →
    WritesRegister (.sub d a b) (decide (s.x a < s.x b)) d
      (((s.x a : Int) - (s.x b : Int)) % ((2 ^ s.cfg.totalBits : Nat) : Int)).toNat s ∧
    (aliased (.sub d a b) = true ↔ d = a ∨ d = b) ∧ EncodedAs (.sub d a b) 1 d a b 0

/-- R124 and R125: INC and DEC in place, never aliased; DEC reports 0. -/
def Obligations.IncDecInPlace : Prop :=
  ∀ (s : State) (d : RegIdx), s.Inv →
    (WritesRegister (.inc d) false d ((s.x d + 1) % 2 ^ s.cfg.totalBits) s ∧ aliased (.inc d) = false ∧
      EncodedAs (.inc d) 13 d 0 0 0) ∧
    WritesRegister (.dec d) (decide (s.x d = 0)) d
      (((s.x d : Int) - 1) % ((2 ^ s.cfg.totalBits : Nat) : Int)).toNat s ∧ aliased (.dec d) = false ∧
      EncodedAs (.dec d) 14 d 0 0 0

/-- R121: the carry-propagate datapath computes the sum modulo 2^(W·K), in words in range. -/
def Obligations.CarryAddIsSum : Prop :=
  ∀ (w : Nat) (xs ys : List Nat), WordsOk w xs ys →
    valueOf w (carryAdd w 0 xs ys) = (valueOf w xs + valueOf w ys) % 2 ^ (w * xs.length) ∧
    (carryAdd w 0 xs ys).length = xs.length ∧ ∀ x ∈ carryAdd w 0 xs ys, x < 2 ^ w

/-- R123: the borrow-propagate datapath computes the difference modulo 2^(W·K); its last borrow is 1 exactly when a < b. -/
def Obligations.BorrowSubIsDifference : Prop :=
  ∀ (w : Nat) (xs ys : List Nat), WordsOk w xs ys →
    (valueOf w (borrowSub w 0 xs ys).1 : Int)
      = ((valueOf w xs : Int) - (valueOf w ys : Int)) % ((2 ^ (w * xs.length) : Nat) : Int) ∧
    (borrowSub w 0 xs ys).2 = if valueOf w xs < valueOf w ys then 1 else 0

/-- R126: the increment and decrement ripples, stopping early, give the results of R124 and R125. -/
def Obligations.RippleIsIncDec : Prop :=
  ∀ (w : Nat) (xs : List Nat), (∀ x ∈ xs, x < 2 ^ w) →
    valueOf w (rippleInc w xs) = (valueOf w xs + 1) % 2 ^ (w * xs.length) ∧
    (valueOf w (rippleDec w xs) : Int) = ((valueOf w xs : Int) - 1) % ((2 ^ (w * xs.length) : Nat) : Int)

/-! ### Bitwise family -/

/-- R130, R131, R132: AND, OR and XOR combine each word with the same word of the other source, and no other. -/
def Obligations.BitwiseActsPerWord : Prop :=
  ∀ (s : State) (d a b : RegIdx), s.Inv → ∀ (i : Instr) (f : Nat → Nat → Nat) (opc : Nat),
    (i = .and d a b ∧ f = Nat.land ∧ opc = 4) ∨ (i = .or d a b ∧ f = Nat.lor ∧ opc = 5) ∨
      (i = .xor d a b ∧ f = Nat.xor ∧ opc = 6) →
    EncodedAs i opc d a b 0 ∧ (aliased i = true ↔ d = a ∨ d = b) ∧
    ∃ t, exec i s = .next t ∧ Succeeded i false s t ∧ t.res = s.res ∧ SameStrbuf s t ∧
      (aliased i = false → t.regWritten d = true ∧
        ∀ j < s.cfg.wordCount, (t.words d).getD j 0 = f ((s.words a).getD j 0) ((s.words b).getD j 0))

/-- R133: LSHIFT by the full 64-bit ARG. -/
def Obligations.LshiftMultiplies : Prop :=
  ∀ (s : State) (d a : RegIdx), s.cfg.Wf →
    WritesRegister (.lshift d a) false d (s.x a * 2 ^ s.arg.toNat % 2 ^ s.cfg.totalBits) s ∧
    (aliased (.lshift d a) = true ↔ d = a) ∧ EncodedAs (.lshift d a) 10 d a 0 0

/-- R134: RSHIFT by the full 64-bit ARG. -/
def Obligations.RshiftDivides : Prop :=
  ∀ (s : State) (d a : RegIdx), s.Inv →
    WritesRegister (.rshift d a) false d (s.x a / 2 ^ s.arg.toNat) s ∧
    (aliased (.rshift d a) = true ↔ d = a) ∧ EncodedAs (.rshift d a) 9 d a 0 0

/-- R135: the barrel shifter, whole words and a shift across word boundaries, gives R133 and R134. -/
def Obligations.BarrelShifterShifts : Prop :=
  ∀ (w n : Nat) (xs : List Nat), 0 < w → (∀ x ∈ xs, x < 2 ^ w) →
    valueOf w (barrelLeft w n xs) = valueOf w xs * 2 ^ n % 2 ^ (w * xs.length) ∧
    valueOf w (barrelRight w n xs) = valueOf w xs / 2 ^ n

/-! ### Multiplicative family -/

/-- R140: MUL. -/
def Obligations.MulIsProductModM : Prop :=
  ∀ (s : State) (d a b : RegIdx), s.cfg.Wf →
    WritesRegister (.mul d a b) false d (s.x a * s.x b % 2 ^ s.cfg.totalBits) s ∧
    (aliased (.mul d a b) = true ↔ d = a ∨ d = b) ∧ EncodedAs (.mul d a b) 2 d a b 0

/-- R141: the schoolbook multiplier, which drops products at offset K and above, computes the product modulo 2^(W·K). -/
def Obligations.SchoolbookIsProduct : Prop :=
  ∀ (w : Nat) (xs ys : List Nat), xs.length = ys.length →
    schoolbookMul w xs.length ys 0 xs 0 = valueOf w xs * valueOf w ys % 2 ^ (w * xs.length)

/-- R142: DIVMOD, quotient to x[D] and remainder to x[E], or DIV_BY_ZERO with nothing written. -/
def Obligations.DivmodQuotientRemainder : Prop :=
  ∀ (s : State) (d e a b : RegIdx), s.Inv →
    (s.x b = 0 → FailsWith (.divmod d e a b) .divByZero s) ∧
    (s.x b ≠ 0 → ∃ t, exec (.divmod d e a b) s = .next t ∧ Succeeded (.divmod d e a b) false s t ∧ t.res = s.res ∧
      SameStrbuf s t ∧
      (aliased (.divmod d e a b) = false → Holds t d (s.x a / s.x b) ∧ Holds t e (s.x a % s.x b) ∧
        t.x d * s.x b + t.x e = s.x a ∧ t.x e < s.x b)) ∧
    (aliased (.divmod d e a b) = true ↔ d = e ∨ d = a ∨ d = b ∨ e = a ∨ e = b) ∧
    EncodedAs (.divmod d e a b) 12 d a b e

/-- R144 and R145: DIV and MOD, the two outputs of DIVMOD, or DIV_BY_ZERO with nothing written. -/
def Obligations.DivAndModOutputs : Prop :=
  ∀ (s : State) (d a b : RegIdx), s.Inv →
    (s.x b = 0 → FailsWith (.div d a b) .divByZero s ∧ FailsWith (.mod d a b) .divByZero s) ∧
    (s.x b ≠ 0 → WritesRegister (.div d a b) false d (s.x a / s.x b) s ∧
      WritesRegister (.mod d a b) false d (s.x a % s.x b) s) ∧
    (aliased (.div d a b) = true ↔ d = a ∨ d = b) ∧ (aliased (.mod d a b) = true ↔ d = a ∨ d = b) ∧
    EncodedAs (.div d a b) 3 d a b 0 ∧ EncodedAs (.mod d a b) 8 d a b 0

/-- R143: the shift-and-subtract loop ends within N subtractions with the quotient and the remainder, for operands of N bits. -/
def Obligations.LongDivisionDivides : Prop :=
  ∀ (n a b : Nat), a < 2 ^ n → b ≠ 0 → longDivide n a b = (a / b, a % b)

/-! ### Advanced operations -/

/-- R150: POW, by value, with 0^0 = 1. -/
def Obligations.PowIsPowerModM : Prop :=
  ∀ (s : State) (d a b : RegIdx), s.Inv →
    WritesRegister (.pow d a b) false d (s.x a ^ s.x b % 2 ^ s.cfg.totalBits) s ∧
    (aliased (.pow d a b) = true ↔ d = a ∨ d = b) ∧ EncodedAs (.pow d a b) 7 d a b 0

/-- R152: ISQRT, the largest y with y·y ≤ x[A]. -/
def Obligations.IsqrtIsFloorRoot : Prop :=
  ∀ (s : State) (d a : RegIdx), s.Inv →
    (∃ y, WritesRegister (.isqrt d a) false d y s ∧ y * y ≤ s.x a ∧ ∀ z, z * z ≤ s.x a → z ≤ y) ∧
    (aliased (.isqrt d a) = true ↔ d = a) ∧ EncodedAs (.isqrt d a) 11 d a 0 0

/-! ### Conversion -/

/-- R160: the base-16 characters, for every byte and every digit value. -/
def Obligations.DigitTable : Prop :=
  (∀ c : Byte, digitValue c =
    if 0x30 ≤ c.toNat ∧ c.toNat ≤ 0x39 then some (c.toNat - 0x30)
    else if 0x61 ≤ c.toNat ∧ c.toNat ≤ 0x66 then some (c.toNat - 0x61 + 10)
    else if 0x41 ≤ c.toNat ∧ c.toNat ≤ 0x46 then some (c.toNat - 0x41 + 10)
    else none) ∧
  ∀ d : Fin 16, (digitCode d).toNat = (if d.val ≤ 9 then 0x30 + d.val else 0x57 + d.val) ∧ digitValue (digitCode d) = some d.val

/-- R161: TOSTR, with its checks in the order of R172 and every byte of STRBUF. `ds` are the digits of x[A], most significant nonzero digit first, "0" for 0. -/
def Obligations.TostrRenders : Prop :=
  ∀ (s : State) (a : RegIdx), s.Inv → EncodedAs (.tostr a) 21 0 a 0 0 ∧
    ∃ ds : List Nat,
      (∀ d ∈ ds, d < 16) ∧ ds.foldl (fun v d => 16 * v + d) 0 = s.x a ∧ (s.x a = 0 → ds = [0]) ∧
      (s.x a ≠ 0 → ds.head? ≠ some 0) ∧ 1 ≤ ds.length ∧ ds.length ≤ s.cfg.totalBits / 4 ∧
      (s.cfg.strbufBytes < s.arg.toNat → FailsWith (.tostr a) .badLength s) ∧
      (s.arg.toNat ≤ s.cfg.strbufBytes → s.arg.toNat < ds.length + 1 → FailsWith (.tostr a) .bufTooSmall s) ∧
      (s.arg.toNat ≤ s.cfg.strbufBytes → ds.length + 1 ≤ s.arg.toNat →
        ∃ t, exec (.tostr a) s = .next t ∧ Succeeded (.tostr a) false s t ∧ t.res.toNat = ds.length ∧
          (∀ (j : Nat) (h : j < ds.length), Memory.read? t.strbuf j = some (digitCode ds[j])) ∧
          Memory.read? t.strbuf ds.length = some 0 ∧
          ∀ j, ds.length < j → Memory.read? t.strbuf j = Memory.read? s.strbuf j)

/-- R162: FROMSTR, with its checks in the order of R172. -/
def Obligations.FromstrParses : Prop :=
  ∀ (s : State) (d : RegIdx), s.Inv → EncodedAs (.fromstr d) 22 d 0 0 0 ∧ aliased (.fromstr d) = false ∧
    (s.cfg.strbufBytes < s.arg.toNat → FailsWith (.fromstr d) .badLength s) ∧
    (s.arg.toNat ≤ s.cfg.strbufBytes → s.cfg.totalBits / 4 < s.arg.toNat → FailsWith (.fromstr d) .strTooLong s) ∧
    (s.arg.toNat ≤ s.cfg.totalBits / 4 →
      ((∃ j < s.arg.toNat, digitValue (s.strByte j) = none) → FailsWith (.fromstr d) .badDigit s) ∧
      ((∀ j < s.arg.toNat, digitValue (s.strByte j) ≠ none) →
        WritesRegister (.fromstr d) false d
          ((List.range s.arg.toNat).foldl (fun v j => 16 * v + (digitValue (s.strByte j)).getD 0) 0) s))

/-- R163: for every value and every capacity from N/4 + 1 to STRBUF_BYTES, TOSTR succeeds, and FROMSTR of the length it returned gives the value back. -/
def Obligations.StringRoundTrip : Prop :=
  ∀ (s : State) (a d : RegIdx), s.Inv → s.cfg.totalBits / 4 + 1 ≤ s.arg.toNat → s.arg.toNat ≤ s.cfg.strbufBytes →
    ∃ t, exec (.tostr a) s = .next t ∧ t.err = .noError ∧ t.res.toNat ≤ s.cfg.totalBits / 4 ∧
      ∃ u, exec (.fromstr d) { t.finish with arg := t.res } = .next u ∧ u.err = .noError ∧ Holds u d (s.x a)

/-! ### Rules over all commands -/

/-- R80 with R79: a command is aliased exactly when it is DIVMOD with D = E, or a destination is a source and it is not ASSIGN; an aliased command that succeeds leaves in each destination a free
value in [0, M − 1], all words written. `Config.draw` has no body, so the statement holds for every such value (log entry 6). -/
def Obligations.AliasedDestinationsAreFree : Prop :=
  ∀ i : Instr,
    (aliased i = true ↔
      (∃ d a b, i = .divmod d d a b) ∨
        ((∀ d a, i ≠ .assign d a) ∧ ∃ r, r ∈ destinations i ∧ r ∈ sources i)) ∧
    ∀ s t : State, s.cfg.Wf → aliased i = true → exec i s = .next t → t.err = .noError →
      ∀ r ∈ destinations i, t.x r < 2 ^ s.cfg.totalBits ∧
        Holds t r (Config.draw s.draws (.aliasedDst r) % 2 ^ s.cfg.totalBits)

/-- R31: UF after a command is 1 exactly for a SUB with x[A] < x[B] or a DEC of 0, and 0 after an error. -/
def Obligations.UfOnlyFromSubAndDec : Prop :=
  ∀ (i : Instr) (s t : State), exec i s = .next t →
    (t.uf = true ↔ (∃ d a b, i = .sub d a b ∧ s.x a < s.x b) ∨ ∃ d, i = .dec d ∧ s.x d = 0) ∧
    (t.err ≠ .noError → t.uf = false)

/-- R170, R172: which command completes with which error, and when. -/
def Obligations.ErrorsByCommand : Prop :=
  ∀ (i : Instr) (s t : State), s.cfg.Wf → exec i s = .next t →
    (t.err = .divByZero ↔
      ∃ d e a b, (i = .div d a b ∨ i = .mod d a b ∨ i = .divmod d e a b) ∧ s.x b = 0) ∧
    (t.err = .badLength ↔ (∃ r, i = .tostr r ∨ i = .fromstr r) ∧ s.cfg.strbufBytes < s.arg.toNat) ∧
    (t.err = .strTooLong ↔
      (∃ d, i = .fromstr d) ∧ s.cfg.totalBits / 4 < s.arg.toNat ∧ s.arg.toNat ≤ s.cfg.strbufBytes) ∧
    (t.err = .badDigit ↔
      (∃ d, i = .fromstr d) ∧ s.arg.toNat ≤ s.cfg.totalBits / 4 ∧ ∃ j < s.arg.toNat, digitValue (s.strByte j) = none) ∧
    (t.err = .bufTooSmall → (∃ a, i = .tostr a) ∧ s.arg.toNat ≤ s.cfg.strbufBytes) ∧
    t.err ≠ .illegalCmd

/-- R171: whatever command ends in an error, the state is the state before it but for STATUS, the error log and the command in flight. -/
def Obligations.ErrorsArePrecise : Prop :=
  ∀ (i : Instr) (s t : State), exec i s = .next t → t.err ≠ .noError →
    Failed (encode i) (some (s.snapshot i)) t.err s t

/-- R78: "The command's result is a function of this snapshot alone": two states of one configuration and one draw of free values (log entry 6) with the same snapshot end alike; a success leaves
the same words in the destinations, the same RES where the command writes RES (with no premise on the old RES; elsewhere the old RES stays), and for TOSTR the same text and terminator in
STRBUF. -/
def Obligations.SnapshotDeterminesResult : Prop :=
  ∀ (i : Instr) (s s' t t' : State), s.Inv → s'.Inv → s.cfg = s'.cfg → s.draws = s'.draws → s.snapshot i = s'.snapshot i →
    exec i s = .next t → exec i s' = .next t' →
      t.uf = t'.uf ∧ t.err = t'.err ∧
      (t.err = .noError →
        (∀ r ∈ destinations i, t.regs[r] = t'.regs[r]) ∧
        (s.res = s'.res ∨ (∃ a b, i = .cmp a b) ∨ (∃ a, i = .iszero a ∨ i = .toint a ∨ i = .tostr a) → t.res = t'.res) ∧
        ∀ a, i = .tostr a → ∀ j ≤ t.res.toNat,
          Memory.read? t.strbuf j = Memory.read? t'.strbuf j ∧ Memory.read? t.strbuf j ≠ none)

/-- R25, R172: the strict machine stops exactly where the next command's snapshot holds an unwritten word, or, for FROMSTR past its two length checks, an unwritten byte below the length; it stops
before any effect, and is the machine everywhere else, at every read, poll, reset and idle cycle too. -/
def Obligations.StrictStopsOnUnwrittenOperands : Prop :=
  (∀ (s : State) (i : Instr), s.nextCommand = some i →
    (strictStep s = .fault .unwrittenOperand ↔
      (∃ r ∈ snapshotRegs i, ∃ x ∈ s.regs[r], x.written = false) ∨
      (∃ d, i = .fromstr d) ∧ s.arg.toNat ≤ s.cfg.strbufBytes ∧ s.arg.toNat ≤ s.cfg.totalBits / 4 ∧
        ∃ j < s.arg.toNat, Memory.read? s.strbuf j = none)) ∧
  (∀ s : State, s.nextCommand = none → strictStep s = step s) ∧
  ∀ s : State, strictStep s ≠ .fault .unwrittenOperand → strictStep s = step s

/-- R27, R26: RES changes only by a successful CMP, ISZERO, TOINT or TOSTR, ARG only by a host write of one of its halves, and either by the reset input. -/
def Obligations.ScalarRegistersChangeOnlyBy : Prop :=
  ∀ s t : State, step s = .next t → s.bus.head? ≠ some .reset →
    (t.res ≠ s.res → t.err = .noError ∧ ∃ i, s.nextCommand = some i ∧
      ((∃ a b, i = .cmp a b) ∨ (∃ a, i = .iszero a ∨ i = .toint a ∨ i = .tostr a))) ∧
    (t.arg ≠ s.arg → ∃ off v rest, s.bus = .write 32 (s.cfg.base + off) v :: rest ∧ (off = 0x8 ∨ off = 0xC))

/-- R21, R24, R28: the words of a register change only by a command that has it as a destination or by a host write of one of its slots; a byte of STRBUF only by TOSTR or by a host write of its slot;
and either by the reset input. -/
def Obligations.StorageChangesOnlyBy : Prop :=
  ∀ s t : State, step s = .next t → s.bus.head? ≠ some .reset →
    (∀ r : RegIdx, t.regs[r] ≠ s.regs[r] →
      (∃ i, s.nextCommand = some i ∧ r ∈ destinations i) ∨
      ∃ j v rest, j < s.cfg.wordCount ∧ s.bus = .write 32 (s.cfg.base + 0x10000 + 0x1000 * r + 4 * j) v :: rest) ∧
    ∀ j : Nat, Memory.read? t.strbuf j ≠ Memory.read? s.strbuf j →
      (∃ a, s.nextCommand = some (.tostr a)) ∨
      ∃ v rest, j < s.cfg.strbufBytes ∧ s.bus = .write 32 (s.cfg.base + 0x20000 + 4 * j) v :: rest

/-- R182 with R32: a step that serves a CMD write logs the word with the code STATUS then holds exactly when that code is an error, so every error completion is logged, a repeated one too; any
other step but the reset input leaves the log and STATUS.ERR. No entry is ever taken out but by the reset input. -/
def Obligations.ErrorLogIsSticky : Prop :=
  ∀ s t : State, step s = .next t → s.bus.head? ≠ some .reset →
    (∀ w rest, s.bus = cmdEvent s.cfg w :: rest →
      t.errLog = if t.err = .noError then s.errLog else { word := w, code := t.err } :: s.errLog) ∧
    ((¬∃ w rest, s.bus = cmdEvent s.cfg w :: rest) → t.errLog = s.errLog ∧ t.err = s.err)

/-! ### The host window -/

/-- R52: the big-number window at offset 0x10000 + r·0x1000 + 4·j. A read changes no state of the block (R58): only the host's events and replies and the count of draws go on. -/
def Obligations.BigNumberWindow : Prop :=
  ∀ (s : State) (rest : List HostEvent) (r : RegIdx) (j : Nat) (v : HostWord), s.Inv → s.busy = false → j < 1024 →
    let addr := s.cfg.base + 0x10000 + 0x1000 * r.val + 4 * j
    (s.bus = .read 32 addr :: rest → ∃ t, step s = .next t ∧
      t = { s with bus := rest, replies := t.replies, draws := t.draws } ∧
      t.replies.head?.map BitVec.toNat = some (if j < s.cfg.wordCount then (s.words r).getD j 0 else 0) ∧
      t.replies.tail = s.replies) ∧
    (s.bus = .write 32 addr v :: rest → s.cfg.wordCount ≤ j → step s = .next { s with bus := rest }) ∧
    (s.bus = .write 32 addr v :: rest → j < s.cfg.wordCount → ∃ t, step s = .next t ∧
      t = { s with bus := rest, regs := t.regs } ∧
      t.regs[r][j]? = some { val := v.toNat % 2 ^ s.cfg.wordBits, written := true } ∧
      (∀ k, k ≠ j → t.regs[r][k]? = s.regs[r][k]?) ∧ ∀ q : RegIdx, q ≠ r → t.regs[q] = s.regs[q])

/-- R53: the STRBUF window at offset 0x20000 + 4·j. A read changes no state of the block (R58): only the host's events and replies and the count of draws go on. -/
def Obligations.StrbufWindow : Prop :=
  ∀ (s : State) (rest : List HostEvent) (j : Nat) (v : HostWord), s.Inv → s.busy = false → j < 16384 →
    let addr := s.cfg.base + 0x20000 + 4 * j
    (s.bus = .read 32 addr :: rest → ∃ t, step s = .next t ∧
      t = { s with bus := rest, replies := t.replies, draws := t.draws } ∧
      t.replies.head?.map BitVec.toNat = some (if j < s.cfg.strbufBytes then (s.strByte j).toNat else 0) ∧
      t.replies.tail = s.replies) ∧
    (s.bus = .write 32 addr v :: rest → s.cfg.strbufBytes ≤ j → step s = .next { s with bus := rest }) ∧
    (s.bus = .write 32 addr v :: rest → j < s.cfg.strbufBytes → ∃ t, step s = .next t ∧
      t = { s with bus := rest, strbuf := t.strbuf } ∧
      (Memory.read? t.strbuf j).map BitVec.toNat = some (v.toNat % 256) ∧
      ∀ k, k ≠ j → Memory.read? t.strbuf k = Memory.read? s.strbuf k)

/-- R54: every slot of a reserved range reads as 0 and ignores writes. -/
def Obligations.ReservedSlotsReadZero : Prop :=
  ∀ (s : State) (rest : List HostEvent) (off : Nat) (v : HostWord), s.cfg.Wf → s.busy = false → off % 4 = 0 →
    (0x20 ≤ off ∧ off ≤ 0xFFFF) ∨ (0x30000 ≤ off ∧ off ≤ 0xFFFFF) →
    (s.bus = .read 32 (s.cfg.base + off) :: rest →
      step s = .next { s with bus := rest, replies := 0 :: s.replies, draws := s.draws + 1 }) ∧
    (s.bus = .write 32 (s.cfg.base + off) v :: rest → step s = .next { s with bus := rest })

/-- R29, R33, R35, R26, R27: what a step that serves a host read or write of a control slot does, and, field by field, what the slots read as. A STATUS read uses up one of the BUSY = 1 reads left
(R211, log entry 4): with none left it is the read that first shows BUSY = 0; until then it shows the UF and ERR of the last completed command (log entry 5). -/
def Obligations.ControlSlots : Prop :=
  (slotAt 0x0 = .cmd ∧ slotAt 0x4 = .status ∧ slotAt 0x8 = .argLo ∧ slotAt 0xC = .argHi ∧ slotAt 0x10 = .resLo ∧
    slotAt 0x14 = .resHi) ∧
  (∀ (s : State) (rest : List HostEvent) (off : Nat), s.cfg.Wf → s.busy = false → off < 0x20 → off % 4 = 0 →
    s.bus = .read 32 (s.cfg.base + off) :: rest →
      step s = .next { s with bus := rest, replies := s.slotValue (slotAt off) :: s.replies, draws := s.draws + 1 }) ∧
  (∀ (s : State) (rest : List HostEvent) (f : InFlight), s.cfg.Wf → s.inflight = some f →
    s.bus = .read 32 (s.cfg.base + 0x4) :: rest →
      (f.busyReads = 0 → step s = .next { s with
        inflight := none, bus := rest, replies := statusBits false s.uf s.err :: s.replies, draws := s.draws + 1 }) ∧
      ∀ k, f.busyReads = k + 1 → step s = .next { s with
        inflight := some { f with busyReads := k }
        bus := rest
        replies := statusBits true f.shownUf f.shownErr :: s.replies
        draws := s.draws + 1 }) ∧
  (∀ (s : State) (rest : List HostEvent) (off : Nat) (v : HostWord), s.cfg.Wf → s.busy = false → 0x4 ≤ off → off < 0x20 →
    off % 4 = 0 → s.bus = .write 32 (s.cfg.base + off) v :: rest →
      step s = .next (({ s with bus := rest } : State).writeSlot (slotAt off) v)) ∧
  (∀ (busy uf : Bool) (err : ErrCode),
    bitsOf (statusBits busy uf err) 0 0 = busy.toNat ∧ bitsOf (statusBits busy uf err) 1 1 = uf.toNat ∧
    bitsOf (statusBits busy uf err) 7 2 = 0 ∧ bitsOf (statusBits busy uf err) 11 8 = err.number ∧
    bitsOf (statusBits busy uf err) 31 12 = 0) ∧
  ∀ (s : State) (v : HostWord),
    s.slotValue .cmd = 0 ∧ (s.busy = false → s.slotValue .status = statusBits false s.uf s.err) ∧
    s.arg.toNat = (s.slotValue .argLo).toNat + 2 ^ 32 * (s.slotValue .argHi).toNat ∧
    s.res.toNat = (s.slotValue .resLo).toNat + 2 ^ 32 * (s.slotValue .resHi).toNat ∧
    s.writeSlot .status v = s ∧ s.writeSlot .resLo v = s ∧ s.writeSlot .resHi v = s ∧
    (s.writeSlot .argLo v).slotValue .argLo = v ∧ (s.writeSlot .argLo v).slotValue .argHi = s.slotValue .argHi ∧
    (s.writeSlot .argHi v).slotValue .argHi = v ∧ (s.writeSlot .argHi v).slotValue .argLo = s.slotValue .argLo ∧
    s.writeSlot .argLo v = { s with arg := (s.writeSlot .argLo v).arg } ∧
    s.writeSlot .argHi v = { s with arg := (s.writeSlot .argHi v).arg }

/-- R55: an access inside the window faults as undefined exactly when it is not 32 bits at a multiple of 4. -/
def Obligations.UndefinedAccessFaults : Prop :=
  ∀ (s : State) (rest : List HostEvent) (width addr : Nat) (v : HostWord), s.cfg.Wf →
    s.bus = .read width addr :: rest ∨ s.bus = .write width addr v :: rest →
    s.cfg.base ≤ addr → addr < s.cfg.base + 2 ^ 20 →
      (step s = .fault .badAccess ↔ ¬(width = 32 ∧ (addr - s.cfg.base) % 4 = 0))

/-- R204, R206: while BUSY = 1 a defined access faults unless it reads STATUS, CONFIG or SBUFSZ; while BUSY = 0 none faults. -/
def Obligations.BusyHazardFaults : Prop :=
  ∀ (s : State) (rest : List HostEvent) (off : Nat) (v : HostWord), s.cfg.Wf → off < 2 ^ 20 → off % 4 = 0 →
    (s.bus = .read 32 (s.cfg.base + off) :: rest →
      (step s = .fault .busyHazard ↔ s.busy = true ∧ ¬(off = 0x4 ∨ off = 0x18 ∨ off = 0x1C)) ∧
      (s.busy = false ∨ off = 0x4 ∨ off = 0x18 ∨ off = 0x1C → ∃ t, step s = .next t)) ∧
    (s.bus = .write 32 (s.cfg.base + off) v :: rest →
      (step s = .fault .busyHazard ↔ s.busy = true) ∧ (s.busy = false → ∃ t, step s = .next t))

/-- R7, R6: a configuration that is not this hardware is refused, and nothing else is. `Config.Wf` also asks for LAT_MAX ≥ 1, which neither rule says: that bound is the model's reading of R209
(DEDUCED, log entry 1). -/
def Obligations.BadConfigurationIsRefused : Prop :=
  ∀ s : State, (¬s.cfg.Wf → step s = .refused .badConfig) ∧ ∀ q, step s = .refused q → q = .badConfig ∧ ¬s.cfg.Wf

/-! ### Time -/

/-- R211, R81: the poll loop of a command with `k` busy reads left sees BUSY = 1 `k` times, with the UF and ERR of the last completed command (log entry 5), then BUSY = 0 with the command's own; nothing else
changes. -/
def Obligations.PollEndsWithBusyZero : Prop :=
  ∀ (s : State) (rest : List HostEvent) (f : InFlight), s.cfg.Wf → s.inflight = some f → s.bus = .poll :: rest →
    runSteps (f.busyReads + 1) s = .next
      { s with
        inflight := none
        bus := rest
        replies := statusBits false s.uf s.err
          :: (List.replicate f.busyReads (statusBits true f.shownUf f.shownErr) ++ s.replies)
        draws := s.draws + f.busyReads + 1 }

/-- R209: left alone, a command in flight completes after between 1 and LAT_MAX clock cycles; BUSY is 1 until then and nothing else changes. -/
def Obligations.LatencyIsBounded : Prop :=
  ∀ s : State, s.Inv → s.busy = true → s.bus = [] →
    ∃ n, 1 ≤ n ∧ n ≤ s.cfg.latMax ∧ runSteps n s = .next { s with inflight := none } ∧
      ∀ m < n, ∃ t, runSteps m s = .next t ∧ t.busy = true

/-- R30, R38, R209: every command sets BUSY, with a latency in [1, LAT_MAX] and its own word and snapshot in flight. -/
def Obligations.CommandsStartBusy : Prop :=
  ∀ (i : Instr) (s : State), s.cfg.Wf → ∃ t f, exec i s = .next t ∧ t.busy = true ∧ t.inflight = some f ∧
    f.word = encode i ∧ f.snapshot = some (s.snapshot i) ∧ 1 ≤ f.cycles ∧ f.cycles ≤ s.cfg.latMax ∧
    f.shownUf = s.uf ∧ f.shownErr = s.err

/-- R188: an idle block does not change while the host does nothing. The other two parts are the model's own reading of R50, R51 and R55 (DEDUCED, log entry 8): an access none of whose bytes
lies in the window does nothing either, and one that starts below the window and reaches into it faults. -/
def Obligations.IdleChangesNothing : Prop :=
  (∀ s : State, s.cfg.Wf → s.busy = false → s.bus = [] → step s = .next s) ∧
  ∀ (s : State) (rest : List HostEvent) (width addr : Nat) (v : HostWord), s.cfg.Wf →
    s.bus = .read width addr :: rest ∨ s.bus = .write width addr v :: rest →
    (addr < s.cfg.base ∧ addr + (width + 7) / 8 ≤ s.cfg.base ∨ s.cfg.base + 2 ^ 20 ≤ addr →
      step s = .next { s with bus := rest }) ∧
    (addr < s.cfg.base → s.cfg.base < addr + (width + 7) / 8 → step s = .fault .badAccess)

/-- R82: `setarg v` leaves ARG = v and nothing else changed. -/
def Obligations.SetargSetsArg : Prop :=
  ∀ (s : State) (rest : List HostEvent) (v : Scalar), s.cfg.Wf → s.busy = false → s.bus = expand s.cfg (.setarg v) ++ rest →
    runSteps 2 s = .next { s with arg := v, bus := rest }
end

