-- ==== Sys2Proof/Laws/BigNum.lean ====
section
/-!
SUPPORT. Words and values (R22, R23): the two views of a big number are inverse to each other.
-/

namespace Sys2Proof.Machine

@[simp] theorem valueOf_nil (w : Nat) : valueOf w [] = 0 := rfl

@[simp] theorem valueOf_cons (w x : Nat) (xs : List Nat) : valueOf w (x :: xs) = x + 2 ^ w * valueOf w xs := rfl

@[simp] theorem wordsOf_zero (w v : Nat) : wordsOf w 0 v = [] := rfl

@[simp] theorem wordsOf_succ (w k v : Nat) : wordsOf w (k + 1) v = v % 2 ^ w :: wordsOf w k (v / 2 ^ w) := rfl

@[simp] theorem length_wordsOf (w k v : Nat) : (wordsOf w k v).length = k := by
  induction k generalizing v with
  | zero => rfl
  | succ k ih => simp [ih]

theorem wordsOf_lt {w k v x : Nat} (h : x ∈ wordsOf w k v) : x < 2 ^ w := by
  induction k generalizing v with
  | zero => simp at h
  | succ k ih =>
    rw [wordsOf_succ, List.mem_cons] at h
    rcases h with rfl | h
    · exact Nat.mod_lt _ (by positivity)
    · exact ih h

/-- The value of the words of `v` is `v` reduced to K·W bits (R22). -/
theorem valueOf_wordsOf (w k v : Nat) : valueOf w (wordsOf w k v) = v % 2 ^ (w * k) := by
  induction k generalizing v with
  | zero => simp [Nat.mod_one]
  | succ k ih =>
    rw [wordsOf_succ, valueOf_cons, ih, Nat.mul_succ, Nat.add_comm (w * k) w, pow_add, Nat.mod_mul]

/-- A sequence of words in range is below 2^(W·K) (R23). -/
theorem valueOf_lt {w : Nat} {xs : List Nat} (h : ∀ x ∈ xs, x < 2 ^ w) : valueOf w xs < 2 ^ (w * xs.length) := by
  induction xs with
  | nil => simp
  | cons x xs ih =>
    have hx := h x (by simp)
    have hxs := ih fun y hy => h y (by simp [hy])
    rw [valueOf_cons, List.length_cons, Nat.mul_succ, Nat.add_comm (w * xs.length) w, pow_add]
    calc x + 2 ^ w * valueOf w xs < 2 ^ w * (valueOf w xs + 1) := by rw [Nat.mul_succ]; omega
      _ ≤ 2 ^ w * 2 ^ (w * xs.length) := Nat.mul_le_mul_left _ hxs

/-- The words of the value of a sequence in range are the sequence (R23: the map is a bijection). -/
theorem wordsOf_valueOf {w : Nat} {xs : List Nat} (h : ∀ x ∈ xs, x < 2 ^ w) :
    wordsOf w xs.length (valueOf w xs) = xs := by
  induction xs with
  | nil => rfl
  | cons x xs ih =>
    have hx := h x (by simp)
    have hxs := ih fun y hy => h y (by simp [hy])
    have hp : 0 < 2 ^ w := by positivity
    rw [List.length_cons, wordsOf_succ, valueOf_cons, Nat.add_mul_mod_self_left, Nat.mod_eq_of_lt hx,
      Nat.add_mul_div_left _ _ hp, Nat.div_eq_of_lt hx, Nat.zero_add, hxs]

/-- Word `j` of a value (R101's word view). -/
theorem getElem_wordsOf {w k v j : Nat} (h : j < (wordsOf w k v).length) :
    (wordsOf w k v)[j] = v / 2 ^ (w * j) % 2 ^ w := by
  induction k generalizing v j with
  | zero => simp at h
  | succ k ih =>
    cases j with
    | zero => simp
    | succ j =>
      have h' : j < (wordsOf w k (v / 2 ^ w)).length := by simpa using h
      simp only [wordsOf_succ, List.getElem_cons_succ]
      rw [ih h', Nat.div_div_eq_div_mul, ← pow_add, Nat.mul_succ, Nat.add_comm w]

/-- The comparator says SMALLER exactly below (R110). -/
theorem compareValues_smaller (a b : Nat) : compareValues a b = .smaller ↔ a < b := by
  unfold compareValues
  constructor
  · intro h
    by_contra hn
    rcases Nat.lt_or_eq_of_le (Nat.le_of_not_lt hn) with h1 | h1
    · simp [h1] at h
    · simp [h1] at h
  · intro h
    rw [if_neg (by omega), if_neg (by omega)]

end Sys2Proof.Machine
end

