-- ==== Sys2Proof/Laws/Memory.lean ====
section
/-!
SUPPORT. The byte memory: what a write changes, and that every operation keeps the canonical form.
-/

namespace Sys2Proof.Machine

theorem Memory.wf_nil : Memory.wf [] := List.Pairwise.nil

theorem Memory.mem_write {m : List Host.Cell} {j : Nat} {v : Byte} {c : Host.Cell}
    (h : c ∈ Memory.write m j v) : c = (j, v) ∨ c ∈ m := by
  induction m with
  | nil => simpa [Memory.write] using h
  | cons x rest ih =>
    simp only [Memory.write] at h
    split at h
    · simpa using h
    · split at h
      · simp only [List.mem_cons] at h ⊢; tauto
      · simp only [List.mem_cons] at h ⊢
        rcases h with h | h
        · tauto
        · have := ih h; tauto

/-- A write keeps the canonical form. -/
theorem Memory.wf_write {m : List Host.Cell} (h : Memory.wf m) (j : Nat) (v : Byte) :
    Memory.wf (Memory.write m j v) := by
  induction m with
  | nil => simp [Memory.write]
  | cons x rest ih =>
    have hx := List.pairwise_cons.1 h
    simp only [Memory.write]
    split
    · rename_i hlt
      refine List.pairwise_cons.2 ⟨fun y hy => ?_, h⟩
      rcases List.mem_cons.1 hy with rfl | hy
      · exact hlt
      · exact lt_trans hlt (hx.1 y hy)
    · split
      · rename_i heq
        exact List.pairwise_cons.2 ⟨fun y hy => by simpa [heq] using hx.1 y hy, hx.2⟩
      · refine List.pairwise_cons.2 ⟨fun y hy => ?_, ih hx.2⟩
        rcases Memory.mem_write hy with rfl | hy
        · simp only; omega
        · exact hx.1 y hy

/-- Several writes keep the canonical form. -/
theorem Memory.wf_writeAll {m : List Host.Cell} (h : Memory.wf m) (j : Nat) (vs : List Byte) :
    Memory.wf (Memory.writeAll m j vs) := by
  induction vs generalizing m j with
  | nil => exact h
  | cons v vs ih => exact ih (Memory.wf_write h j v) (j + 1)

/-- The cells after several writes: old ones and the ones written. -/
theorem Memory.mem_writeAll {m : List Host.Cell} {j : Nat} {vs : List Byte} {c : Host.Cell}
    (h : c ∈ Memory.writeAll m j vs) : c ∈ m ∨ (j ≤ c.1 ∧ c.1 < j + vs.length) := by
  induction vs generalizing m j with
  | nil => exact .inl h
  | cons v vs ih =>
    simp only [List.length_cons]
    rcases ih h with h | h
    · rcases Memory.mem_write h with rfl | h
      · exact .inr (by simp only; omega)
      · exact .inl h
    · exact .inr (by omega)

/-- Read after write, same index. -/
@[simp] theorem Memory.read_write_self (m : List Host.Cell) (j : Nat) (v : Byte) :
    Memory.read? (Memory.write m j v) j = some v := by
  induction m with
  | nil => simp [Memory.write, Memory.read?]
  | cons x rest ih =>
    simp only [Memory.write]
    split
    · simp [Memory.read?]
    · split
      · simp [Memory.read?]
      · rename_i h1 h2
        simp [Memory.read?, Ne.symm h2, ih]

/-- Read after write, another index. -/
theorem Memory.read_write_other {m : List Host.Cell} {j k : Nat} (v : Byte) (h : k ≠ j) :
    Memory.read? (Memory.write m j v) k = Memory.read? m k := by
  induction m with
  | nil => simp [Memory.write, Memory.read?, Ne.symm h]
  | cons x rest ih =>
    simp only [Memory.write]
    split
    · simp [Memory.read?, Ne.symm h]
    · split
      · rename_i heq
        simp [Memory.read?, ← heq, Ne.symm h]
      · simp [Memory.read?, ih]

/-- Several writes: the byte at an index outside them is as before. -/
theorem Memory.read_writeAll_outside {m : List Host.Cell} {j k : Nat} {vs : List Byte}
    (h : k < j ∨ j + vs.length ≤ k) : Memory.read? (Memory.writeAll m j vs) k = Memory.read? m k := by
  induction vs generalizing m j with
  | nil => rfl
  | cons v vs ih =>
    simp only [List.length_cons] at h
    rw [Memory.writeAll, ih (by omega), Memory.read_write_other v (by omega)]

/-- Several writes: the byte at an index inside them is the one written. -/
theorem Memory.read_writeAll_inside {m : List Host.Cell} {j k : Nat} {vs : List Byte} (h : k < vs.length) :
    Memory.read? (Memory.writeAll m j vs) (j + k) = some vs[k] := by
  induction vs generalizing m j k with
  | nil => simp at h
  | cons v vs ih =>
    cases k with
    | zero =>
      rw [Memory.writeAll, Memory.read_writeAll_outside (by omega)]
      simp
    | succ k =>
      have := ih (m := Memory.write m j v) (j := j + 1) (k := k) (by simpa using h)
      rw [Memory.writeAll, show j + (k + 1) = j + 1 + k by omega, this]
      simp

end Sys2Proof.Machine
end

