-- ==== Sys2Proof/Laws/State.lean ====
section
/-!
SUPPORT. For each named update of the state, what each field is afterwards.
-/

namespace Sys2Proof.Machine

variable (s t : State)

@[simp] theorem State.writeReg_cfg (r : RegIdx) (v : Nat) : (s.writeReg r v).cfg = s.cfg := rfl
theorem State.writeReg_regs (r : RegIdx) (v : Nat) : (s.writeReg r v).regs = s.regs.set r ((wordsOf s.cfg.wordBits s.cfg.wordCount v).map fun x => { val := x, written := true }) := rfl
@[simp] theorem State.writeReg_arg (r : RegIdx) (v : Nat) : (s.writeReg r v).arg = s.arg := rfl
@[simp] theorem State.writeReg_res (r : RegIdx) (v : Nat) : (s.writeReg r v).res = s.res := rfl
@[simp] theorem State.writeReg_strbuf (r : RegIdx) (v : Nat) : (s.writeReg r v).strbuf = s.strbuf := rfl
@[simp] theorem State.writeReg_uf (r : RegIdx) (v : Nat) : (s.writeReg r v).uf = s.uf := rfl
@[simp] theorem State.writeReg_err (r : RegIdx) (v : Nat) : (s.writeReg r v).err = s.err := rfl
@[simp] theorem State.writeReg_inflight (r : RegIdx) (v : Nat) : (s.writeReg r v).inflight = s.inflight := rfl
@[simp] theorem State.writeReg_errLog (r : RegIdx) (v : Nat) : (s.writeReg r v).errLog = s.errLog := rfl
@[simp] theorem State.writeReg_draws (r : RegIdx) (v : Nat) : (s.writeReg r v).draws = s.draws := rfl
@[simp] theorem State.writeReg_bus (r : RegIdx) (v : Nat) : (s.writeReg r v).bus = s.bus := rfl
@[simp] theorem State.writeReg_replies (r : RegIdx) (v : Nat) : (s.writeReg r v).replies = s.replies := rfl

@[simp] theorem State.writeWord_cfg (r : RegIdx) (j v : Nat) : (s.writeWord r j v).cfg = s.cfg := rfl
theorem State.writeWord_regs (r : RegIdx) (j v : Nat) : (s.writeWord r j v).regs = s.regs.set r (s.regs[r].set j { val := v % 2 ^ s.cfg.wordBits, written := true }) := rfl
@[simp] theorem State.writeWord_arg (r : RegIdx) (j v : Nat) : (s.writeWord r j v).arg = s.arg := rfl
@[simp] theorem State.writeWord_res (r : RegIdx) (j v : Nat) : (s.writeWord r j v).res = s.res := rfl
@[simp] theorem State.writeWord_strbuf (r : RegIdx) (j v : Nat) : (s.writeWord r j v).strbuf = s.strbuf := rfl
@[simp] theorem State.writeWord_uf (r : RegIdx) (j v : Nat) : (s.writeWord r j v).uf = s.uf := rfl
@[simp] theorem State.writeWord_err (r : RegIdx) (j v : Nat) : (s.writeWord r j v).err = s.err := rfl
@[simp] theorem State.writeWord_inflight (r : RegIdx) (j v : Nat) : (s.writeWord r j v).inflight = s.inflight := rfl
@[simp] theorem State.writeWord_errLog (r : RegIdx) (j v : Nat) : (s.writeWord r j v).errLog = s.errLog := rfl
@[simp] theorem State.writeWord_draws (r : RegIdx) (j v : Nat) : (s.writeWord r j v).draws = s.draws := rfl
@[simp] theorem State.writeWord_bus (r : RegIdx) (j v : Nat) : (s.writeWord r j v).bus = s.bus := rfl
@[simp] theorem State.writeWord_replies (r : RegIdx) (j v : Nat) : (s.writeWord r j v).replies = s.replies := rfl

@[simp] theorem State.writeBytes_cfg (j : Nat) (vs : List Byte) : (s.writeBytes j vs).cfg = s.cfg := rfl
@[simp] theorem State.writeBytes_regs (j : Nat) (vs : List Byte) : (s.writeBytes j vs).regs = s.regs := rfl
@[simp] theorem State.writeBytes_arg (j : Nat) (vs : List Byte) : (s.writeBytes j vs).arg = s.arg := rfl
@[simp] theorem State.writeBytes_res (j : Nat) (vs : List Byte) : (s.writeBytes j vs).res = s.res := rfl
@[simp] theorem State.writeBytes_strbuf (j : Nat) (vs : List Byte) : (s.writeBytes j vs).strbuf = Memory.writeAll s.strbuf j vs := rfl
@[simp] theorem State.writeBytes_uf (j : Nat) (vs : List Byte) : (s.writeBytes j vs).uf = s.uf := rfl
@[simp] theorem State.writeBytes_err (j : Nat) (vs : List Byte) : (s.writeBytes j vs).err = s.err := rfl
@[simp] theorem State.writeBytes_inflight (j : Nat) (vs : List Byte) : (s.writeBytes j vs).inflight = s.inflight := rfl
@[simp] theorem State.writeBytes_errLog (j : Nat) (vs : List Byte) : (s.writeBytes j vs).errLog = s.errLog := rfl
@[simp] theorem State.writeBytes_draws (j : Nat) (vs : List Byte) : (s.writeBytes j vs).draws = s.draws := rfl
@[simp] theorem State.writeBytes_bus (j : Nat) (vs : List Byte) : (s.writeBytes j vs).bus = s.bus := rfl
@[simp] theorem State.writeBytes_replies (j : Nat) (vs : List Byte) : (s.writeBytes j vs).replies = s.replies := rfl

@[simp] theorem State.writeArgLo_cfg (v : HostWord) : (s.writeArgLo v).cfg = s.cfg := rfl
@[simp] theorem State.writeArgLo_regs (v : HostWord) : (s.writeArgLo v).regs = s.regs := rfl
theorem State.writeArgLo_arg (v : HostWord) : (s.writeArgLo v).arg = BitVec.ofNat 64 (2 ^ 32 * (s.arg.toNat / 2 ^ 32) + v.toNat) := rfl
@[simp] theorem State.writeArgLo_res (v : HostWord) : (s.writeArgLo v).res = s.res := rfl
@[simp] theorem State.writeArgLo_strbuf (v : HostWord) : (s.writeArgLo v).strbuf = s.strbuf := rfl
@[simp] theorem State.writeArgLo_uf (v : HostWord) : (s.writeArgLo v).uf = s.uf := rfl
@[simp] theorem State.writeArgLo_err (v : HostWord) : (s.writeArgLo v).err = s.err := rfl
@[simp] theorem State.writeArgLo_inflight (v : HostWord) : (s.writeArgLo v).inflight = s.inflight := rfl
@[simp] theorem State.writeArgLo_errLog (v : HostWord) : (s.writeArgLo v).errLog = s.errLog := rfl
@[simp] theorem State.writeArgLo_draws (v : HostWord) : (s.writeArgLo v).draws = s.draws := rfl
@[simp] theorem State.writeArgLo_bus (v : HostWord) : (s.writeArgLo v).bus = s.bus := rfl
@[simp] theorem State.writeArgLo_replies (v : HostWord) : (s.writeArgLo v).replies = s.replies := rfl

@[simp] theorem State.writeArgHi_cfg (v : HostWord) : (s.writeArgHi v).cfg = s.cfg := rfl
@[simp] theorem State.writeArgHi_regs (v : HostWord) : (s.writeArgHi v).regs = s.regs := rfl
theorem State.writeArgHi_arg (v : HostWord) : (s.writeArgHi v).arg = BitVec.ofNat 64 (2 ^ 32 * v.toNat + s.arg.toNat % 2 ^ 32) := rfl
@[simp] theorem State.writeArgHi_res (v : HostWord) : (s.writeArgHi v).res = s.res := rfl
@[simp] theorem State.writeArgHi_strbuf (v : HostWord) : (s.writeArgHi v).strbuf = s.strbuf := rfl
@[simp] theorem State.writeArgHi_uf (v : HostWord) : (s.writeArgHi v).uf = s.uf := rfl
@[simp] theorem State.writeArgHi_err (v : HostWord) : (s.writeArgHi v).err = s.err := rfl
@[simp] theorem State.writeArgHi_inflight (v : HostWord) : (s.writeArgHi v).inflight = s.inflight := rfl
@[simp] theorem State.writeArgHi_errLog (v : HostWord) : (s.writeArgHi v).errLog = s.errLog := rfl
@[simp] theorem State.writeArgHi_draws (v : HostWord) : (s.writeArgHi v).draws = s.draws := rfl
@[simp] theorem State.writeArgHi_bus (v : HostWord) : (s.writeArgHi v).bus = s.bus := rfl
@[simp] theorem State.writeArgHi_replies (v : HostWord) : (s.writeArgHi v).replies = s.replies := rfl

@[simp] theorem State.raiseError_cfg (w : HostWord) (e : ErrCode) : (s.raiseError w e).cfg = s.cfg := rfl
@[simp] theorem State.raiseError_regs (w : HostWord) (e : ErrCode) : (s.raiseError w e).regs = s.regs := rfl
@[simp] theorem State.raiseError_arg (w : HostWord) (e : ErrCode) : (s.raiseError w e).arg = s.arg := rfl
@[simp] theorem State.raiseError_res (w : HostWord) (e : ErrCode) : (s.raiseError w e).res = s.res := rfl
@[simp] theorem State.raiseError_strbuf (w : HostWord) (e : ErrCode) : (s.raiseError w e).strbuf = s.strbuf := rfl
@[simp] theorem State.raiseError_uf (w : HostWord) (e : ErrCode) : (s.raiseError w e).uf = false := rfl
@[simp] theorem State.raiseError_err (w : HostWord) (e : ErrCode) : (s.raiseError w e).err = e := rfl
@[simp] theorem State.raiseError_inflight (w : HostWord) (e : ErrCode) : (s.raiseError w e).inflight = s.inflight := rfl
@[simp] theorem State.raiseError_errLog (w : HostWord) (e : ErrCode) : (s.raiseError w e).errLog = { word := w, code := e } :: s.errLog := rfl
@[simp] theorem State.raiseError_draws (w : HostWord) (e : ErrCode) : (s.raiseError w e).draws = s.draws := rfl
@[simp] theorem State.raiseError_bus (w : HostWord) (e : ErrCode) : (s.raiseError w e).bus = s.bus := rfl
@[simp] theorem State.raiseError_replies (w : HostWord) (e : ErrCode) : (s.raiseError w e).replies = s.replies := rfl

@[simp] theorem State.finish_cfg : (s.finish).cfg = s.cfg := rfl
@[simp] theorem State.finish_regs : (s.finish).regs = s.regs := rfl
@[simp] theorem State.finish_arg : (s.finish).arg = s.arg := rfl
@[simp] theorem State.finish_res : (s.finish).res = s.res := rfl
@[simp] theorem State.finish_strbuf : (s.finish).strbuf = s.strbuf := rfl
@[simp] theorem State.finish_uf : (s.finish).uf = s.uf := rfl
@[simp] theorem State.finish_err : (s.finish).err = s.err := rfl
@[simp] theorem State.finish_inflight : (s.finish).inflight = none := rfl
@[simp] theorem State.finish_errLog : (s.finish).errLog = s.errLog := rfl
@[simp] theorem State.finish_draws : (s.finish).draws = s.draws := rfl
@[simp] theorem State.finish_bus : (s.finish).bus = s.bus := rfl
@[simp] theorem State.finish_replies : (s.finish).replies = s.replies := rfl

@[simp] theorem State.reply_cfg (v : HostWord) : (s.reply v).cfg = s.cfg := rfl
@[simp] theorem State.reply_regs (v : HostWord) : (s.reply v).regs = s.regs := rfl
@[simp] theorem State.reply_arg (v : HostWord) : (s.reply v).arg = s.arg := rfl
@[simp] theorem State.reply_res (v : HostWord) : (s.reply v).res = s.res := rfl
@[simp] theorem State.reply_strbuf (v : HostWord) : (s.reply v).strbuf = s.strbuf := rfl
@[simp] theorem State.reply_uf (v : HostWord) : (s.reply v).uf = s.uf := rfl
@[simp] theorem State.reply_err (v : HostWord) : (s.reply v).err = s.err := rfl
@[simp] theorem State.reply_inflight (v : HostWord) : (s.reply v).inflight = s.inflight := rfl
@[simp] theorem State.reply_errLog (v : HostWord) : (s.reply v).errLog = s.errLog := rfl
@[simp] theorem State.reply_draws (v : HostWord) : (s.reply v).draws = s.draws + 1 := rfl
@[simp] theorem State.reply_bus (v : HostWord) : (s.reply v).bus = s.bus := rfl
@[simp] theorem State.reply_replies (v : HostWord) : (s.reply v).replies = v :: s.replies := rfl

@[simp] theorem State.advance_cfg : (s.advance).cfg = s.cfg := rfl
@[simp] theorem State.advance_regs : (s.advance).regs = s.regs := rfl
@[simp] theorem State.advance_arg : (s.advance).arg = s.arg := rfl
@[simp] theorem State.advance_res : (s.advance).res = s.res := rfl
@[simp] theorem State.advance_strbuf : (s.advance).strbuf = s.strbuf := rfl
@[simp] theorem State.advance_uf : (s.advance).uf = s.uf := rfl
@[simp] theorem State.advance_err : (s.advance).err = s.err := rfl
@[simp] theorem State.advance_errLog : (s.advance).errLog = s.errLog := rfl
@[simp] theorem State.advance_draws : (s.advance).draws = s.draws := rfl
@[simp] theorem State.advance_bus : (s.advance).bus = s.bus := rfl
@[simp] theorem State.advance_replies : (s.advance).replies = s.replies := rfl

@[simp] theorem State.cycle_cfg : (s.cycle).cfg = s.cfg := rfl
@[simp] theorem State.cycle_regs : (s.cycle).regs = s.regs := rfl
@[simp] theorem State.cycle_arg : (s.cycle).arg = s.arg := rfl
@[simp] theorem State.cycle_res : (s.cycle).res = s.res := rfl
@[simp] theorem State.cycle_strbuf : (s.cycle).strbuf = s.strbuf := rfl
@[simp] theorem State.cycle_uf : (s.cycle).uf = s.uf := rfl
@[simp] theorem State.cycle_err : (s.cycle).err = s.err := rfl
@[simp] theorem State.cycle_errLog : (s.cycle).errLog = s.errLog := rfl
@[simp] theorem State.cycle_draws : (s.cycle).draws = s.draws := rfl
@[simp] theorem State.cycle_bus : (s.cycle).bus = s.bus := rfl
@[simp] theorem State.cycle_replies : (s.cycle).replies = s.replies := rfl

@[simp] theorem State.writeRegs_cfg (l : List (RegIdx × Nat)) : (s.writeRegs l).cfg = s.cfg := by
  induction l generalizing s with
  | nil => rfl
  | cons p l ih => exact ih _

@[simp] theorem State.writeRegs_arg (l : List (RegIdx × Nat)) : (s.writeRegs l).arg = s.arg := by
  induction l generalizing s with
  | nil => rfl
  | cons p l ih => exact ih _

@[simp] theorem State.writeRegs_res (l : List (RegIdx × Nat)) : (s.writeRegs l).res = s.res := by
  induction l generalizing s with
  | nil => rfl
  | cons p l ih => exact ih _

@[simp] theorem State.writeRegs_strbuf (l : List (RegIdx × Nat)) : (s.writeRegs l).strbuf = s.strbuf := by
  induction l generalizing s with
  | nil => rfl
  | cons p l ih => exact ih _

@[simp] theorem State.writeRegs_uf (l : List (RegIdx × Nat)) : (s.writeRegs l).uf = s.uf := by
  induction l generalizing s with
  | nil => rfl
  | cons p l ih => exact ih _

@[simp] theorem State.writeRegs_err (l : List (RegIdx × Nat)) : (s.writeRegs l).err = s.err := by
  induction l generalizing s with
  | nil => rfl
  | cons p l ih => exact ih _

@[simp] theorem State.writeRegs_inflight (l : List (RegIdx × Nat)) : (s.writeRegs l).inflight = s.inflight := by
  induction l generalizing s with
  | nil => rfl
  | cons p l ih => exact ih _

@[simp] theorem State.writeRegs_errLog (l : List (RegIdx × Nat)) : (s.writeRegs l).errLog = s.errLog := by
  induction l generalizing s with
  | nil => rfl
  | cons p l ih => exact ih _

@[simp] theorem State.writeRegs_draws (l : List (RegIdx × Nat)) : (s.writeRegs l).draws = s.draws := by
  induction l generalizing s with
  | nil => rfl
  | cons p l ih => exact ih _

@[simp] theorem State.writeRegs_bus (l : List (RegIdx × Nat)) : (s.writeRegs l).bus = s.bus := by
  induction l generalizing s with
  | nil => rfl
  | cons p l ih => exact ih _

@[simp] theorem State.writeRegs_replies (l : List (RegIdx × Nat)) : (s.writeRegs l).replies = s.replies := by
  induction l generalizing s with
  | nil => rfl
  | cons p l ih => exact ih _

@[simp] theorem State.writeRegs_nil : s.writeRegs [] = s := rfl

@[simp] theorem State.writeRegs_cons (p : RegIdx × Nat) (l : List (RegIdx × Nat)) :
    s.writeRegs (p :: l) = (s.writeReg p.1 p.2).writeRegs l := rfl

@[simp] theorem State.succeed_cfg (al : Bool) (e : Effect) : (s.succeed al e).cfg = s.cfg := by simp [State.succeed]
@[simp] theorem State.succeed_regs (al : Bool) (e : Effect) : (s.succeed al e).regs = (s.writeRegs (s.settled al e.regs)).regs := rfl
@[simp] theorem State.succeed_arg (al : Bool) (e : Effect) : (s.succeed al e).arg = s.arg := by simp [State.succeed]
@[simp] theorem State.succeed_res (al : Bool) (e : Effect) : (s.succeed al e).res = e.res.getD s.res := rfl
@[simp] theorem State.succeed_strbuf (al : Bool) (e : Effect) : (s.succeed al e).strbuf = Memory.writeAll s.strbuf 0 e.text := by simp [State.succeed]
@[simp] theorem State.succeed_uf (al : Bool) (e : Effect) : (s.succeed al e).uf = e.uf := rfl
@[simp] theorem State.succeed_err (al : Bool) (e : Effect) : (s.succeed al e).err = .noError := rfl
@[simp] theorem State.succeed_inflight (al : Bool) (e : Effect) : (s.succeed al e).inflight = s.inflight := by simp [State.succeed]
@[simp] theorem State.succeed_errLog (al : Bool) (e : Effect) : (s.succeed al e).errLog = s.errLog := by simp [State.succeed]
@[simp] theorem State.succeed_draws (al : Bool) (e : Effect) : (s.succeed al e).draws = s.draws := by simp [State.succeed]
@[simp] theorem State.succeed_bus (al : Bool) (e : Effect) : (s.succeed al e).bus = s.bus := by simp [State.succeed]
@[simp] theorem State.succeed_replies (al : Bool) (e : Effect) : (s.succeed al e).replies = s.replies := by simp [State.succeed]

@[simp] theorem State.launch_cfg (w : HostWord) (p : Option Snapshot) : (t.launch s w p).cfg = t.cfg := rfl
@[simp] theorem State.launch_regs (w : HostWord) (p : Option Snapshot) : (t.launch s w p).regs = t.regs := rfl
@[simp] theorem State.launch_arg (w : HostWord) (p : Option Snapshot) : (t.launch s w p).arg = t.arg := rfl
@[simp] theorem State.launch_res (w : HostWord) (p : Option Snapshot) : (t.launch s w p).res = t.res := rfl
@[simp] theorem State.launch_strbuf (w : HostWord) (p : Option Snapshot) : (t.launch s w p).strbuf = t.strbuf := rfl
@[simp] theorem State.launch_uf (w : HostWord) (p : Option Snapshot) : (t.launch s w p).uf = t.uf := rfl
@[simp] theorem State.launch_err (w : HostWord) (p : Option Snapshot) : (t.launch s w p).err = t.err := rfl
@[simp] theorem State.launch_errLog (w : HostWord) (p : Option Snapshot) : (t.launch s w p).errLog = t.errLog := rfl
@[simp] theorem State.launch_draws (w : HostWord) (p : Option Snapshot) : (t.launch s w p).draws = s.draws + 1 := rfl
@[simp] theorem State.launch_bus (w : HostWord) (p : Option Snapshot) : (t.launch s w p).bus = t.bus := rfl
@[simp] theorem State.launch_replies (w : HostWord) (p : Option Snapshot) : (t.launch s w p).replies = t.replies := rfl
@[simp] theorem State.launch_inflight (w : HostWord) (p : Option Snapshot) :
    (t.launch s w p).inflight = some
      { word := w, snapshot := p, shownUf := s.uf, shownErr := s.err
        busyReads := Config.draw s.draws .busyReads
        cycles := 1 + Config.draw s.draws .latency % s.cfg.latMax } := rfl

@[simp] theorem State.launch_busy (w : HostWord) (p : Option Snapshot) : (t.launch s w p).busy = true := rfl

@[simp] theorem State.complete_success (w : HostWord) (al : Bool) (e : Effect) :
    s.complete w al (.success e) = s.succeed al e := rfl

@[simp] theorem State.complete_error (w : HostWord) (al : Bool) (c : ErrCode) :
    s.complete w al (.error c) = s.raiseError w c := rfl

@[simp] theorem State.settled_plain (l : List (RegIdx × Nat)) : s.settled false l = l := rfl

@[simp] theorem State.settled_aliased (l : List (RegIdx × Nat)) :
    s.settled true l = l.map fun p => (p.1, Config.draw s.draws (.aliasedDst p.1) % s.cfg.modulus) := rfl

end Sys2Proof.Machine
end

