-- ==== Sys2Proof/Laws/Ops.lean ====
section
/-!
SUPPORT. What each shared operation does, once: registers after a write, the completion of a command, and `exec` as one conclusion.
-/

namespace Sys2Proof.Machine

/-- K·W = N in a legal configuration (R7). -/
theorem Config.Wf.bits_eq {c : Config} (h : c.Wf) : c.wordBits * c.wordCount = c.totalBits := by
  obtain ⟨hw, ⟨hm, -, -⟩, -⟩ := h
  have := Nat.div_add_mod c.totalBits c.wordBits
  simpa [Config.wordCount, hm] using this

/-- N is at least 8 and a multiple of 8 (R7). -/
theorem Config.Wf.eight_le {c : Config} (h : c.Wf) : 8 ≤ c.totalBits ∧ c.totalBits % 8 = 0 := by
  have hb := Config.Wf.bits_eq h
  obtain ⟨hw, ⟨-, hk, -⟩, -⟩ := h
  rcases hw with hw | hw | hw <;> rw [hw] at hb <;> constructor <;> omega

/-- M is positive. -/
theorem Config.modulus_pos (c : Config) : 0 < c.modulus := by unfold Config.modulus; positivity

section Registers

variable (s : State) (r q : RegIdx) (v : Nat)

@[simp] theorem State.writeReg_regs_self :
    (s.writeReg r v).regs[r] = (wordsOf s.cfg.wordBits s.cfg.wordCount v).map fun x => { val := x, written := true } := by
  simp [State.writeReg]

/-- The same with the index as a number, the form `simp` brings it to. -/
@[simp] theorem State.writeReg_regs_val :
    (s.writeReg r v).regs[r.val] = (wordsOf s.cfg.wordBits s.cfg.wordCount v).map fun x => { val := x, written := true } :=
  State.writeReg_regs_self s r v

theorem State.writeReg_regs_other (h : q ≠ r) : (s.writeReg r v).regs[q] = s.regs[q] := by
  have : r.val ≠ q.val := fun e => h (Fin.ext e.symm)
  simp [State.writeReg, this]

/-- Reading words that are all written gives their contents. -/
theorem resolveWords_written (c : Config) (n r j : Nat) (xs : List Nat) :
    resolveWords c n r j (xs.map fun x => { val := x, written := true }) = xs := by
  induction xs generalizing j with
  | nil => rfl
  | cons x xs ih => simp [resolveWords, resolveWord, ih]

@[simp] theorem length_resolveWords (c : Config) (n r j : Nat) (cs : BigReg) :
    (resolveWords c n r j cs).length = cs.length := by
  induction cs generalizing j with
  | nil => rfl
  | cons x xs ih => simp [resolveWords, ih]

theorem resolveWords_lt {c : Config} {n r j : Nat} {cs : BigReg} (h : ∀ x ∈ cs, x.val < 2 ^ c.wordBits) :
    ∀ x ∈ resolveWords c n r j cs, x < 2 ^ c.wordBits := by
  induction cs generalizing j with
  | nil => simp [resolveWords]
  | cons y ys ih =>
    intro x hx
    rcases List.mem_cons.1 hx with rfl | hx
    · unfold resolveWord
      split
      · exact h y (by simp)
      · exact Nat.mod_lt _ (by positivity)
    · exact ih (fun z hz => h z (by simp [hz])) x hx

/-- A register whose words are all written reads the same whatever the draw. -/
theorem resolveWords_of_written {c : Config} {n n' r r' j j' : Nat} {cs : BigReg} (h : cs.all (·.written) = true) :
    resolveWords c n r j cs = resolveWords c n' r' j' cs := by
  induction cs generalizing j j' with
  | nil => rfl
  | cons y ys ih =>
    simp only [List.all_cons, Bool.and_eq_true] at h
    simp only [resolveWords, resolveWord, h.1, if_true]
    rw [ih h.2]

/-- x[r] depends on the configuration, the register's words and the draw only. -/
theorem State.x_eq_of_regs {s t : State} {r : RegIdx} (hc : t.cfg = s.cfg) (hr : t.regs[r] = s.regs[r])
    (hw : s.regWritten r = true) : t.x r = s.x r := by
  unfold State.x State.words
  rw [hc, hr, resolveWords_of_written (n' := s.draws) (r' := r) (j' := 0) hw]

end Registers

/-- A register whose words are those of `v` holds v mod 2^(W·K), whatever the draw. -/
theorem State.holds_of_regs {t : State} {r : RegIdx} {v : Nat}
    (h : t.regs[r] = (wordsOf t.cfg.wordBits t.cfg.wordCount v).map fun x => { val := x, written := true }) :
    Holds t r (v % 2 ^ (t.cfg.wordBits * t.cfg.wordCount)) := by
  constructor
  · simp [State.regWritten, h]
  · rw [State.x, State.words, h, resolveWords_written, valueOf_wordsOf]

/-- Under the invariant a register's value is below M (R23). -/
theorem State.x_lt {s : State} (h : s.Inv) (r : RegIdx) : s.x r < s.cfg.modulus := by
  have hr := h.2.1 r
  have := valueOf_lt (resolveWords_lt (n := s.draws) (r := r) (j := 0) hr.2)
  rw [length_resolveWords, hr.1, Config.Wf.bits_eq h.1] at this
  exact this

theorem State.x_lt_pow {s : State} (h : s.Inv) (r : RegIdx) : s.x r < 2 ^ s.cfg.totalBits := State.x_lt h r

/-- Each word a reader gets is below 2^W (R23), and there are K of them. -/
theorem State.words_wf {s : State} (h : s.Inv) (r : RegIdx) :
    (s.words r).length = s.cfg.wordCount ∧ ∀ x ∈ s.words r, x < 2 ^ s.cfg.wordBits :=
  ⟨by rw [State.words, length_resolveWords, (h.2.1 r).1], resolveWords_lt (h.2.1 r).2⟩

/-- The words a reader gets are the words of x[r] (R22). -/
theorem State.words_eq {s : State} (h : s.Inv) (r : RegIdx) :
    s.words r = wordsOf s.cfg.wordBits s.cfg.wordCount (s.x r) := by
  have hw := State.words_wf h r
  rw [State.x, ← hw.1, wordsOf_valueOf hw.2]

/-- UF of SUB (R122). -/
theorem ufOfSub_eq (a b : Nat) : ufOfSub a b = decide (a < b) := by
  simp [ufOfSub, beq_eq_decide, compareValues_smaller]

/-- UF of DEC (R125). -/
theorem ufOfDec_eq (v : Nat) : ufOfDec v = decide (v = 0) := by
  simp [ufOfDec, beq_eq_decide, compareValues_smaller]

/-- How a command ends, for each command (R12): the completion its meaning computes. -/
def completionOf (i : Instr) (s : State) : Completion :=
  match i with
  | .add d a b => .success { regs := [(d, (s.x a + s.x b) % s.cfg.modulus)] }
  | .sub d a b => .success { uf := ufOfSub (s.x a) (s.x b), regs := [(d, subMod s.cfg.modulus (s.x a) (s.x b))] }
  | .mul d a b => .success { regs := [(d, s.x a * s.x b % s.cfg.modulus)] }
  | .div d a b => divisionCompletion (s.x b) [(d, s.x a / s.x b)]
  | .and d a b => .success { regs := [(d, combineWords s.cfg.wordBits (· &&& ·) (s.words a) (s.words b))] }
  | .or d a b => .success { regs := [(d, combineWords s.cfg.wordBits (· ||| ·) (s.words a) (s.words b))] }
  | .xor d a b => .success { regs := [(d, combineWords s.cfg.wordBits (· ^^^ ·) (s.words a) (s.words b))] }
  | .pow d a b => .success { regs := [(d, squareMultiply s.cfg.modulus s.cfg.totalBits (s.x a) (s.x b))] }
  | .mod d a b => divisionCompletion (s.x b) [(d, s.x a % s.x b)]
  | .rshift d a => .success { regs := [(d, shiftRightMod s.cfg.totalBits (s.x a) s.argNat)] }
  | .lshift d a => .success { regs := [(d, shiftLeftMod s.cfg.totalBits (s.x a) s.argNat)] }
  | .isqrt d a => .success { regs := [(d, bisectRoot s.cfg.totalBits (s.x a))] }
  | .divmod d e a b => divisionCompletion (s.x b) [(d, s.x a / s.x b), (e, s.x a % s.x b)]
  | .inc d => .success { regs := [(d, (s.x d + 1) % s.cfg.modulus)] }
  | .dec d => .success { uf := ufOfDec (s.x d), regs := [(d, subMod s.cfg.modulus (s.x d) 1)] }
  | .cmp a b => .success { res := some (compareValues (s.x a) (s.x b)).code }
  | .iszero a => .success { res := some (if s.x a = 0 then 1 else 0) }
  | .init d => .success { regs := [(d, 0)] }
  | .fromint d => .success { regs := [(d, s.argNat % s.cfg.modulus)] }
  | .toint a => .success { res := some (BitVec.ofNat 64 (s.x a)) }
  | .assign d a => .success { regs := [(d, s.x a)] }
  | .tostr a => tostrCompletion s.cfg (s.x a) s.argNat
  | .fromstr d => fromstrCompletion s.cfg d s.argNat (s.strBytes s.parseLength)

/-- Every command answers a next state: the conclusion of its completion. Later proofs cite this instead of unfolding `exec`. -/
theorem exec_eq (i : Instr) (s : State) : exec i s = .next (s.conclude i (completionOf i s)) := by
  cases i <;> rfl

/-- What a success writes to registers is its destinations, in order. -/
theorem completionOf_regs {i : Instr} {s : State} {e : Effect} (h : completionOf i s = .success e) :
    e.regs.map Prod.fst = destinations i := by
  cases i
  case div | mod | divmod =>
    simp only [completionOf, divisionCompletion] at h
    split at h
    · exact Completion.noConfusion h
    · injection h with h; subst h; rfl
  case tostr =>
    simp only [completionOf, tostrCompletion] at h
    split at h
    · exact Completion.noConfusion h
    · split at h
      · exact Completion.noConfusion h
      · injection h with h; subst h; rfl
  case fromstr =>
    simp only [completionOf, fromstrCompletion] at h
    split at h
    · exact Completion.noConfusion h
    · split at h
      · exact Completion.noConfusion h
      · split at h
        · exact Completion.noConfusion h
        · injection h with h; subst h; rfl
  all_goals (simp only [completionOf] at h; injection h with h; subst h; rfl)

/-- An error completion never has code NONE. -/
theorem completionOf_error {i : Instr} {s : State} {c : ErrCode} (h : completionOf i s = .error c) : c ≠ .noError := by
  rintro rfl
  cases i
  case div | mod | divmod =>
    simp only [completionOf, divisionCompletion] at h
    split at h <;> simp at h
  case tostr =>
    simp only [completionOf, tostrCompletion] at h
    split at h
    · simp at h
    · split at h <;> simp at h
  case fromstr =>
    simp only [completionOf, fromstrCompletion] at h
    split at h
    · simp at h
    · split at h
      · simp at h
      · split at h <;> simp at h
  all_goals simp [completionOf] at h

/-- Only TOSTR stores bytes, and never more than STRBUF_BYTES of them (R28). -/
theorem completionOf_text {i : Instr} {s : State} {e : Effect} (h : completionOf i s = .success e) :
    e.text = [] ∨ (∃ a, i = .tostr a) ∧ e.text.length ≤ s.cfg.strbufBytes := by
  cases i
  case div | mod | divmod =>
    simp only [completionOf, divisionCompletion] at h
    split at h
    · exact Completion.noConfusion h
    · injection h with h; subst h; exact .inl rfl
  case tostr =>
    simp only [completionOf, tostrCompletion] at h
    split at h
    · exact Completion.noConfusion h
    · split at h
      · exact Completion.noConfusion h
      · injection h with h; subst h
        exact .inr ⟨⟨_, rfl⟩, by simp; omega⟩
  case fromstr =>
    simp only [completionOf, fromstrCompletion] at h
    split at h
    · exact Completion.noConfusion h
    · split at h
      · exact Completion.noConfusion h
      · split at h
        · exact Completion.noConfusion h
        · injection h with h; subst h; exact .inl rfl
  all_goals (simp only [completionOf] at h; injection h with h; subst h; exact .inl rfl)

/-- The registers after several writes: those not written keep their words. -/
theorem State.writeRegs_regs_other {s : State} {l : List (RegIdx × Nat)} {q : RegIdx} (h : q ∉ l.map Prod.fst) :
    (s.writeRegs l).regs[q] = s.regs[q] := by
  induction l generalizing s with
  | nil => rfl
  | cons p l ih =>
    simp only [List.map_cons, List.mem_cons, not_or] at h
    rw [State.writeRegs_cons, ih h.2, State.writeReg_regs_other _ _ _ _ h.1]

theorem State.settled_fst (s : State) (al : Bool) (l : List (RegIdx × Nat)) :
    (s.settled al l).map Prod.fst = l.map Prod.fst := by
  unfold State.settled
  split <;> simp

/-- Every write of K words in range keeps the registers well formed. -/
theorem State.RegsWf.writeReg {s : State} (h : s.RegsWf) (r : RegIdx) (v : Nat) : (s.writeReg r v).RegsWf := by
  intro q
  by_cases hq : q = r
  · subst hq
    rw [State.writeReg_regs_self]
    refine ⟨by simp, fun c hc => ?_⟩
    obtain ⟨x, hx, rfl⟩ := List.mem_map.1 hc
    exact wordsOf_lt hx
  · rw [State.writeReg_regs_other _ _ _ _ hq]
    exact h q

theorem State.RegsWf.writeRegs {s : State} (h : s.RegsWf) (l : List (RegIdx × Nat)) : (s.writeRegs l).RegsWf := by
  induction l generalizing s with
  | nil => exact h
  | cons p l ih => exact ih (h.writeReg p.1 p.2)

/-- Everything `conclude` can do: an error completion or a successful one, then the command is in flight. -/
theorem State.conclude_cases (s : State) (i : Instr) (c : Completion) :
    (∃ e, c = .success e ∧
      s.conclude i c = (s.succeed (aliased i) e).launch s (encode i) (some (s.snapshot i))) ∨
    (∃ code, c = .error code ∧
      s.conclude i c = (s.raiseError (encode i) code).launch s (encode i) (some (s.snapshot i))) := by
  cases c with
  | success e => exact .inl ⟨e, rfl, rfl⟩
  | error code => exact .inr ⟨code, rfl, rfl⟩

theorem State.conclude_success (s : State) (i : Instr) (e : Effect) :
    s.conclude i (.success e) = (s.succeed (aliased i) e).launch s (encode i) (some (s.snapshot i)) := rfl

theorem State.conclude_error (s : State) (i : Instr) (c : ErrCode) :
    s.conclude i (.error c) = (s.raiseError (encode i) c).launch s (encode i) (some (s.snapshot i)) := rfl

/-- A started command is in flight with what STATUS showed before (R29, R38). -/
theorem State.launch_started (t s : State) (w : HostWord) (p : Option Snapshot) : Started w p s (t.launch s w p) :=
  ⟨_, rfl, rfl, rfl, rfl, rfl⟩

/-- What every successful command leaves (R12): the shared part of every result statement. -/
theorem State.conclude_succeeded {s : State} {i : Instr} {e : Effect} (h : completionOf i s = .success e) :
    Succeeded i e.uf s (s.conclude i (.success e)) := by
  rw [State.conclude_success]
  refine ⟨rfl, rfl, by simp, State.launch_started _ _ _ _, by simp, by simp, by simp, by simp, fun r hr => ?_⟩
  rw [State.launch_regs, State.succeed_regs, State.writeRegs_regs_other]
  rw [State.settled_fst, completionOf_regs h]
  exact hr

/-- What every failing command leaves (R171). -/
theorem State.conclude_failed (s : State) (i : Instr) (c : ErrCode) :
    Failed (encode i) (some (s.snapshot i)) c s (s.conclude i (.error c)) := by
  rw [State.conclude_error]
  exact ⟨rfl, rfl, rfl, State.launch_started _ _ _ _, ⟨rfl, rfl, rfl, rfl, fun _ _ => rfl⟩, fun _ => rfl, rfl⟩

/-- A single destination holds the value written, reduced to N bits (R24). -/
theorem State.conclude_holds {s : State} {i : Instr} {e : Effect} {d : RegIdx} {v : Nat} (hc : s.cfg.Wf)
    (hd : e.regs = [(d, v)]) (ha : aliased i = false) :
    Holds (s.conclude i (.success e)) d (v % s.cfg.modulus) := by
  have hb := Config.Wf.bits_eq hc
  rw [State.conclude_success, ha]
  have h := State.holds_of_regs (t := (s.succeed false e).launch s (encode i) (some (s.snapshot i))) (r := d) (v := v)
    (by simp [hd, State.writeReg])
  simpa [Config.modulus, hb] using h

/-- A command whose completion is one register write: what its result statement needs. -/
theorem writesRegister_of {i : Instr} {s : State} {u : Bool} {d : RegIdx} {v v' : Nat} (hc : s.cfg.Wf)
    (h : completionOf i s = .success { uf := u, regs := [(d, v)] }) (hv : v % s.cfg.modulus = v') :
    WritesRegister i u d v' s := by
  refine ⟨_, exec_eq i s, ?_, ?_, ?_, fun ha => ?_⟩
  · rw [h]
    exact State.conclude_succeeded h
  · simp [h, State.conclude_success]
  · intro j
    simp [h, State.conclude_success, Memory.writeAll]
  · rw [h, ← hv]
    exact State.conclude_holds hc rfl ha

/-- A command whose completion is a value for RES. -/
theorem writesResult_of {i : Instr} {s : State} {v : Scalar} {v' : Nat}
    (h : completionOf i s = .success { res := some v }) (hv : v.toNat = v') : WritesResult i v' s := by
  refine ⟨_, exec_eq i s, ?_, ?_, ?_⟩
  · rw [h]
    exact State.conclude_succeeded h
  · intro j
    simp [h, State.conclude_success, Memory.writeAll]
  · simp [h, State.conclude_success, hv]

/-- A command whose completion is an error. -/
theorem failsWith_of {i : Instr} {s : State} {c : ErrCode} (h : completionOf i s = .error c) : FailsWith i c s :=
  ⟨_, exec_eq i s, by rw [h]; exact State.conclude_failed s i c⟩

/-- What the exec of a command leaves when it succeeds or fails, in one place. -/
theorem exec_cases {i : Instr} {s t : State} (h : exec i s = .next t) :
    (∃ e, completionOf i s = .success e ∧
      t = (s.succeed (aliased i) e).launch s (encode i) (some (s.snapshot i))) ∨
    (∃ c, completionOf i s = .error c ∧
      t = (s.raiseError (encode i) c).launch s (encode i) (some (s.snapshot i))) := by
  rw [exec_eq] at h
  injection h with h
  subst h
  rcases State.conclude_cases s i (completionOf i s) with ⟨e, he, hc⟩ | ⟨c, he, hc⟩
  · exact .inl ⟨e, he, hc⟩
  · exact .inr ⟨c, he, hc⟩

end Sys2Proof.Machine
end

