-- ==== Sys2Proof/Laws/Bus.lean ====
section
/-!
SUPPORT. Everything one step can do (`StepCase`), once: every rule about steps is derived from it.
-/

namespace Sys2Proof.Machine

/-- `off` is the offset of a defined access at `addr` (R51, R55). -/
def OffsetOf (c : Config) (addr off : Nat) : Prop := addr = c.base + off ∧ off < 2 ^ 20 ∧ off % 4 = 0

/-- The state without its first host event. -/
def State.pop (s : State) : State := { s with bus := s.bus.tail }

@[simp] theorem State.pop_cfg (s : State) : s.pop.cfg = s.cfg := rfl
@[simp] theorem State.pop_regs (s : State) : s.pop.regs = s.regs := rfl
@[simp] theorem State.pop_arg (s : State) : s.pop.arg = s.arg := rfl
@[simp] theorem State.pop_res (s : State) : s.pop.res = s.res := rfl
@[simp] theorem State.pop_strbuf (s : State) : s.pop.strbuf = s.strbuf := rfl
@[simp] theorem State.pop_uf (s : State) : s.pop.uf = s.uf := rfl
@[simp] theorem State.pop_err (s : State) : s.pop.err = s.err := rfl
@[simp] theorem State.pop_inflight (s : State) : s.pop.inflight = s.inflight := rfl
@[simp] theorem State.pop_errLog (s : State) : s.pop.errLog = s.errLog := rfl
@[simp] theorem State.pop_draws (s : State) : s.pop.draws = s.draws := rfl
@[simp] theorem State.pop_replies (s : State) : s.pop.replies = s.replies := rfl
@[simp] theorem State.pop_bus (s : State) : s.pop.bus = s.bus.tail := rfl
@[simp] theorem State.pop_busy (s : State) : s.pop.busy = s.busy := rfl
@[simp] theorem State.pop_x (s : State) (r : RegIdx) : s.pop.x r = s.x r := rfl
@[simp] theorem State.pop_words (s : State) (r : RegIdx) : s.pop.words r = s.words r := rfl

/-- How a step that answers a next state went. -/
inductive StepCase (s t : State) : Prop where
  /-- No host event: a clock cycle. -/
  | cycle (hb : s.bus = []) (ht : t = s.cycle)
  /-- The reset input. -/
  | reset (hb : s.bus.head? = some .reset) (ht : t = s.pop.hardReset)
  /-- A turn of the poll loop. -/
  | poll (hb : s.bus.head? = some .poll)
      (ht : t = { s.pop.readStatus with bus := if s.pop.advance.busy then .poll :: s.pop.bus else s.pop.bus })
  /-- An access that neither starts in the window nor reaches into it. -/
  | outside (addr : Nat) (hw : windowOffset s.cfg addr = none) (hb : (∃ width, s.bus.head? = some (.read width addr)) ∨
      ∃ width data, s.bus.head? = some (.write width addr data)) (ht : t = s.pop)
  /-- A read of STATUS. -/
  | status (addr : Nat) (hb : s.bus.head? = some (.read 32 addr)) (ht : t = s.pop.readStatus)
  /-- A read of another slot. -/
  | read (addr off : Nat) (hb : s.bus.head? = some (.read 32 addr)) (ho : OffsetOf s.cfg addr off)
      (hs : slotAt off ≠ .status) (ht : t = s.pop.reply (s.pop.slotValue (slotAt off)))
  /-- A write of a slot other than CMD, while idle. -/
  | write (addr off : Nat) (data : HostWord) (hb : s.bus.head? = some (.write 32 addr data)) (ho : OffsetOf s.cfg addr off)
      (hs : slotAt off ≠ .cmd) (hi : s.busy = false) (ht : t = s.pop.writeSlot (slotAt off) data)
  /-- An illegal command word, while idle. -/
  | illegal (w : HostWord) (hd : decode w = none) (hi : s.busy = false) (hn : s.nextCommand = none)
      (hb : s.bus.head? = some (cmdEvent s.cfg w)) (ht : t = s.pop.concludeIllegal w)
  /-- A command, while idle. -/
  | command (i : Instr) (hn : s.nextCommand = some i) (hi : s.busy = false)
      (hb : ∃ w, s.bus.head? = some (cmdEvent s.cfg w) ∧ decode w = some i) (ht : t = s.pop.conclude i (completionOf i s.pop))

theorem windowOffset_some {c : Config} {addr off : Nat} (h : windowOffset c addr = some off) :
    addr = c.base + off ∧ off < 2 ^ 20 := by
  unfold windowOffset at h
  split at h
  · injection h with h; omega
  · cases h

theorem windowOffset_of {c : Config} {off : Nat} (h : off < 2 ^ 20) : windowOffset c (c.base + off) = some off := by
  unfold windowOffset
  rw [if_pos (by omega)]
  simp

theorem accessDefined_true {width off : Nat} : accessDefined width off = true ↔ width = 32 ∧ off % 4 = 0 := by
  simp [accessDefined]

/-- CMD stands at offset 0 alone (R35). -/
theorem slotAt_cmd {off : Nat} (h4 : off % 4 = 0) (hs : slotAt off = .cmd) : off = 0 := by
  unfold slotAt at hs
  split at hs
  · have : off / 4 < 8 := by omega
    interval_cases h : off / 4 <;> simp [controlSlot] at hs
    omega
  · (repeat' split at hs) <;> simp at hs

/-- A step that serves a defined read is the read of its slot (R51, R55). -/
theorem step_read {s : State} {rest : List HostEvent} {off : Nat} (hc : s.cfg.Wf) (ho : off < 2 ^ 20) (h4 : off % 4 = 0)
    (hb : s.bus = .read 32 (s.cfg.base + off) :: rest) : step s = readSlot (slotAt off) { s with bus := rest } := by
  have ha : accessDefined 32 off = true := accessDefined_true.2 ⟨rfl, h4⟩
  simp [step, machineStep, if_pos hc, hb, hostEvent, hostRead, windowOffset_of ho, ha]

/-- A step that serves a defined write is the write of its slot (R51, R55). -/
theorem step_write {s : State} {rest : List HostEvent} {off : Nat} {v : HostWord} (hc : s.cfg.Wf) (ho : off < 2 ^ 20)
    (h4 : off % 4 = 0) (hb : s.bus = .write 32 (s.cfg.base + off) v :: rest) :
    step s = writeSlot (slotAt off) v { s with bus := rest } := by
  have ha : accessDefined 32 off = true := accessDefined_true.2 ⟨rfl, h4⟩
  simp [step, machineStep, if_pos hc, hb, hostEvent, hostWrite, windowOffset_of ho, ha]

/-- An access that does not start in the window changes nothing where it does not fault. -/
theorem accessOutside_next {width addr : Nat} {s t : State} (h : accessOutside width addr s = .next t) : s = t := by
  unfold accessOutside at h
  split at h
  · cases h
  · injection h

/-- Everything a step that answers a next state can have done; the configuration was legal. -/
theorem step_cases {s t : State} (h : step s = .next t) : s.cfg.Wf ∧ StepCase s t := by
  unfold step machineStep at h
  split at h
  case isFalse => cases h
  case isTrue hc =>
    refine ⟨hc, ?_⟩
    split at h
    · rename_i hb
      injection h with h
      exact .cycle hb h.symm
    · rename_i e rest hb
      have hp : ({ s with bus := rest } : State) = s.pop := by simp [State.pop, hb]
      rw [hp] at h
      have hbusy : s.pop.busy = s.busy := rfl
      cases e with
      | reset =>
        injection h with h
        exact .reset (by simp [hb]) h.symm
      | poll =>
        injection h with h
        exact .poll (by simp [hb]) h.symm
      | read width addr =>
        simp only [hostEvent, hostRead] at h
        split at h
        · rename_i hw
          exact .outside addr hw (.inl ⟨width, by simp [hb]⟩) (accessOutside_next h).symm
        · rename_i off ho
          split at h
          · rename_i ha
            obtain ⟨rfl, h4⟩ := accessDefined_true.1 ha
            obtain ⟨h1, h2⟩ := windowOffset_some ho
            unfold readSlot at h
            split at h
            · cases h
            · split at h
              · injection h with h
                exact .status addr (by simp [hb]) h.symm
              · rename_i hs
                injection h with h
                exact .read addr off (by simp [hb]) ⟨h1, h2, h4⟩ hs h.symm
          · cases h
      | write width addr data =>
        simp only [hostEvent, hostWrite] at h
        split at h
        · rename_i hw
          exact .outside addr hw (.inr ⟨width, data, by simp [hb]⟩) (accessOutside_next h).symm
        · rename_i off ho
          split at h
          · rename_i ha
            obtain ⟨rfl, h4⟩ := accessDefined_true.1 ha
            obtain ⟨h1, h2⟩ := windowOffset_some ho
            unfold writeSlot at h
            split at h
            · cases h
            · rename_i hi
              have hi : s.busy = false := by simpa [hbusy] using hi
              split at h
              · rename_i hs
                have hcmd : s.bus.head? = some (cmdEvent s.cfg data) := by
                  obtain rfl := slotAt_cmd h4 hs
                  simp [hb, h1, cmdEvent]
                have hn : s.nextCommand = decode data := by
                  have ho' : windowOffset s.cfg addr = some off := ho
                  simp [State.nextCommand, hb, ho', hc, hi, ha, hs]
                unfold cmdWrite at h
                split at h
                · rename_i hd
                  injection h with h
                  exact .illegal data hd hi (hn.trans hd) hcmd h.symm
                · rename_i i hd
                  rw [exec_eq] at h
                  injection h with h
                  exact .command i (hn.trans hd) hi ⟨data, hcmd, hd⟩ h.symm
              · rename_i hs
                injection h with h
                exact .write addr off data (by simp [hb]) ⟨h1, h2, h4⟩ hs hi h.symm
          · cases h

/-- Everything a write to a slot other than CMD can do (R26, R52, R53, R54). -/
theorem State.writeSlot_cases (s : State) (slot : Slot) (data : HostWord) :
    s.writeSlot slot data = s ∨
    (slot = .argLo ∧ s.writeSlot slot data = s.writeArgLo data) ∨
    (slot = .argHi ∧ s.writeSlot slot data = s.writeArgHi data) ∨
    (∃ r j, slot = .bigWord r j ∧ j < s.cfg.wordCount ∧ s.writeSlot slot data = s.writeWord r j data.toNat) ∨
    ∃ j, slot = .strByte j ∧ j < s.cfg.strbufBytes ∧ s.writeSlot slot data = s.writeBytes j [data.setWidth 8] := by
  cases slot with
  | argLo => exact .inr (.inl ⟨rfl, rfl⟩)
  | argHi => exact .inr (.inr (.inl ⟨rfl, rfl⟩))
  | bigWord r j =>
    by_cases h : j < s.cfg.wordCount
    · exact .inr (.inr (.inr (.inl ⟨r, j, rfl, h, by simp [State.writeSlot, h]⟩)))
    · exact .inl (by simp [State.writeSlot, h])
  | strByte j =>
    by_cases h : j < s.cfg.strbufBytes
    · exact .inr (.inr (.inr (.inr ⟨j, rfl, h, by simp [State.writeSlot, h]⟩)))
    · exact .inl (by simp [State.writeSlot, h])
  | cmd | status | resLo | resHi | config | sbufsz | reserved => exact .inl rfl

/-- A host write of one word changes that word only (R52). -/
theorem State.writeWord_regs_other {s : State} {r q : RegIdx} (j v : Nat) (h : q ≠ r) :
    (s.writeWord r j v).regs[q] = s.regs[q] := by
  have : r.val ≠ q.val := fun e => h (Fin.ext e.symm)
  simp [State.writeWord, this]

theorem State.writeWord_regs_self (s : State) (r : RegIdx) (j v : Nat) :
    (s.writeWord r j v).regs[r] = s.regs[r].set j { val := v % 2 ^ s.cfg.wordBits, written := true } := by
  simp [State.writeWord]

/-- ARG_LO and ARG_HI sit at their offsets only (R35). -/
theorem slotAt_argLo {off : Nat} (h4 : off % 4 = 0) (hs : slotAt off = .argLo) : off = 0x8 := by
  unfold slotAt at hs
  split at hs
  · rename_i h
    interval_cases off <;> simp_all [controlSlot]
  · (repeat' split at hs) <;> cases hs

theorem slotAt_argHi {off : Nat} (h4 : off % 4 = 0) (hs : slotAt off = .argHi) : off = 0xC := by
  unfold slotAt at hs
  split at hs
  · rename_i h
    interval_cases off <;> simp_all [controlSlot]
  · (repeat' split at hs) <;> cases hs

/-- The slots a write changes, by name. -/
theorem slotAt_bigWord {off : Nat} {r : RegIdx} {j : Nat} (h : off < 2 ^ 20) (h4 : off % 4 = 0)
    (hs : slotAt off = .bigWord r j) : off = 0x10000 + 0x1000 * r.val + 4 * j ∧ j < 1024 := by
  unfold slotAt at hs
  split at hs
  · exfalso
    unfold controlSlot at hs
    split at hs <;> cases hs
  · split at hs
    · cases hs
    · split at hs
      · injection hs with h1 h2
        have := congrArg Fin.val h1
        simp only [Fin.ofNat] at this
        omega
      · split at hs <;> cases hs

theorem slotAt_strByte {off j : Nat} (h : off < 2 ^ 20) (h4 : off % 4 = 0)
    (hs : slotAt off = .strByte j) : off = 0x20000 + 4 * j ∧ j < 16384 := by
  unfold slotAt at hs
  split at hs
  · exfalso
    unfold controlSlot at hs
    split at hs <;> cases hs
  · split at hs
    · cases hs
    · split at hs
      · cases hs
      · split at hs
        · injection hs with h1
          omega
        · cases hs

/-- The big-number slot at its offset (R52). -/
theorem slotAt_of_bigWord (r : RegIdx) {j : Nat} (h : j < 1024) :
    slotAt (0x10000 + 0x1000 * r.val + 4 * j) = .bigWord r j := by
  have hr := r.isLt
  unfold slotAt
  rw [if_neg (by omega), if_neg (by omega), if_pos (by omega)]
  congr 1
  · apply Fin.ext
    simp only [Fin.ofNat]
    omega
  · omega

/-- The STRBUF slot at its offset (R53). -/
theorem slotAt_of_strByte {j : Nat} (h : j < 16384) : slotAt (0x20000 + 4 * j) = .strByte j := by
  unfold slotAt
  rw [if_neg (by omega), if_neg (by omega), if_neg (by omega), if_pos (by omega)]
  congr 1
  omega

end Sys2Proof.Machine
end

