-- ==== Sys2Proof/Laws/Decode.lean ====
section
/-!
SUPPORT. The bits of an encoded command word: its number, its fields, and what a mask of the opcode table keeps of it.
-/

namespace Sys2Proof

/-- The number of a command word, field by field (R70). -/
theorem packWord_toNat (opc : BitVec 5) (d a b e : RegIdx) :
    (packWord opc d a b e).toNat
      = opc.toNat + 256 * d.val + 4096 * a.val + 65536 * b.val + 1048576 * e.val := by
  have ho := opc.isLt
  have join (n x y : Nat) (hy : y < 2 ^ n) : x <<< n ||| y = 2 ^ n * x + y := by
    rw [← Nat.shiftLeft_add_eq_or_of_lt hy, Nat.shiftLeft_eq, Nat.mul_comm]
  unfold packWord
  simp only [BitVec.toNat_append, BitVec.toNat_ofFin, BitVec.toNat_ofNat]
  rw [join 5 _ _ (by omega), join 3 _ _ (by norm_num), join 4 _ _ (by omega), join 4 _ _ (by omega),
    join 4 _ _ (by omega), join 4 _ _ (by omega)]
  omega

section Fields

variable (opc : BitVec 5) (d a b e : RegIdx)

theorem fieldD_toNat (w : HostWord) : (fieldD w).val = w.toNat / 256 % 16 := by
  simp [fieldD, Nat.shiftRight_eq_div_pow]

theorem fieldA_toNat (w : HostWord) : (fieldA w).val = w.toNat / 4096 % 16 := by
  simp [fieldA, Nat.shiftRight_eq_div_pow]

theorem fieldB_toNat (w : HostWord) : (fieldB w).val = w.toNat / 65536 % 16 := by
  simp [fieldB, Nat.shiftRight_eq_div_pow]

theorem fieldE_toNat (w : HostWord) : (fieldE w).val = w.toNat / 1048576 % 16 := by
  simp [fieldE, Nat.shiftRight_eq_div_pow]

@[simp] theorem fieldD_packWord : fieldD (packWord opc d a b e) = d := by
  have := opc.isLt
  apply Fin.ext
  rw [fieldD_toNat, packWord_toNat]
  omega

@[simp] theorem fieldA_packWord : fieldA (packWord opc d a b e) = a := by
  have := opc.isLt
  apply Fin.ext
  rw [fieldA_toNat, packWord_toNat]
  omega

@[simp] theorem fieldB_packWord : fieldB (packWord opc d a b e) = b := by
  have := opc.isLt
  apply Fin.ext
  rw [fieldB_toNat, packWord_toNat]
  omega

@[simp] theorem fieldE_packWord : fieldE (packWord opc d a b e) = e := by
  have := opc.isLt
  apply Fin.ext
  rw [fieldE_toNat, packWord_toNat]
  omega

end Fields

/-- Keeping all four bits of a register field keeps the field. -/
@[simp] theorem and_full (x : BitVec 4) : x &&& 15#4 = x := by simpa using BitVec.and_allOnes (x := x)

/-- What a mask keeps of a command word, field by field (R74). -/
theorem packWord_and (opc : BitVec 5) (d a b e : RegIdx) (m : HostWord) :
    packWord opc d a b e &&& m
      = 0#8 ++ (BitVec.ofFin (w := 4) e &&& m.extractLsb' 20 4) ++ (BitVec.ofFin (w := 4) b &&& m.extractLsb' 16 4)
        ++ (BitVec.ofFin (w := 4) a &&& m.extractLsb' 12 4) ++ (BitVec.ofFin (w := 4) d &&& m.extractLsb' 8 4)
        ++ 0#3 ++ (opc &&& m.extractLsb' 0 5) := by
  apply BitVec.eq_of_getLsbD_eq
  intro i hi
  simp only [packWord, BitVec.getLsbD_and, BitVec.getLsbD_append, BitVec.getLsbD_extractLsb', BitVec.getLsbD_zero]
  interval_cases i <;> simp

/-- The low five bits of a masked word are the opcode's, so rows of other opcodes are not selected. -/
theorem append_opc_inj {hi hi' : BitVec 27} {opc opc' : BitVec 5} (h : hi ++ opc = hi' ++ opc') : opc = opc' := by
  have h' := congrArg BitVec.toNat h
  simp only [BitVec.toNat_append] at h'
  apply BitVec.eq_of_toNat_eq
  have e (x : BitVec 27) (y : BitVec 5) : (x.toNat <<< 5 ||| y.toNat) % 32 = y.toNat := by
    rw [← Nat.shiftLeft_add_eq_or_of_lt y.isLt, Nat.shiftLeft_eq]
    have := y.isLt
    omega
  rw [← e hi opc, h', e]

end Sys2Proof
end

