-- ==== Sys2Proof/Laws/PerInstr.lean ====
section
/-!
SUPPORT. Statements made per instruction. Family LegalWord: the word of every command is legal by the prose of R70, R71 and R75.
-/

namespace Sys2Proof.Laws.LegalWord

/-- The command's word is legal (R75). -/
def Statement (i : Instr) : Prop := wordLegal (encode i) = true

/-- Bits of an encoded word from its number. -/
theorem bitsOf_packWord (opc : BitVec 5) (d a b e : RegIdx) (hi lo : Nat) :
    bitsOf (packWord opc d a b e) hi lo
      = (opc.toNat + 256 * d.val + 4096 * a.val + 65536 * b.val + 1048576 * e.val) / 2 ^ lo % 2 ^ (hi - lo + 1) := by
  rw [bitsOf, packWord_toNat]

/-- The seven fields of an encoded word (R70). -/
theorem fields_packWord (opc : BitVec 5) (d a b e : RegIdx) :
    bitsOf (packWord opc d a b e) 4 0 = opc.toNat ∧ bitsOf (packWord opc d a b e) 7 5 = 0 ∧
    bitsOf (packWord opc d a b e) 31 24 = 0 ∧ bitsOf (packWord opc d a b e) 11 8 = d.val ∧
    bitsOf (packWord opc d a b e) 15 12 = a.val ∧ bitsOf (packWord opc d a b e) 19 16 = b.val ∧
    bitsOf (packWord opc d a b e) 23 20 = e.val := by
  have := opc.isLt
  simp only [bitsOf_packWord]
  norm_num
  omega

theorem legal_packWord (opc : BitVec 5) (d a b e : RegIdx) (f : Format) (hf : formatOfOpcode opc.toNat = some f)
    (hd : f.usesD = true ∨ d = 0) (ha : f.usesA = true ∨ a = 0) (hb : f.usesB = true ∨ b = 0)
    (he : f.usesE = true ∨ e = 0) : wordLegal (packWord opc d a b e) = true := by
  obtain ⟨h0, h1, h2, h3, h4, h5, h6⟩ := fields_packWord opc d a b e
  simp only [wordLegal, h0, hf, h1, h2, h3, h4, h5, h6]
  rcases hd with hd | rfl <;> rcases ha with ha | rfl <;> rcases hb with hb | rfl <;> rcases he with he | rfl <;>
    simp [*]

theorem add (d a b : RegIdx) : Statement (.add d a b) := legal_packWord _ _ _ _ _ .DAB rfl (.inl rfl) (.inl rfl) (.inl rfl) (.inr rfl)
theorem sub (d a b : RegIdx) : Statement (.sub d a b) := legal_packWord _ _ _ _ _ .DAB rfl (.inl rfl) (.inl rfl) (.inl rfl) (.inr rfl)
theorem mul (d a b : RegIdx) : Statement (.mul d a b) := legal_packWord _ _ _ _ _ .DAB rfl (.inl rfl) (.inl rfl) (.inl rfl) (.inr rfl)
theorem div (d a b : RegIdx) : Statement (.div d a b) := legal_packWord _ _ _ _ _ .DAB rfl (.inl rfl) (.inl rfl) (.inl rfl) (.inr rfl)
theorem and (d a b : RegIdx) : Statement (.and d a b) := legal_packWord _ _ _ _ _ .DAB rfl (.inl rfl) (.inl rfl) (.inl rfl) (.inr rfl)
theorem or (d a b : RegIdx) : Statement (.or d a b) := legal_packWord _ _ _ _ _ .DAB rfl (.inl rfl) (.inl rfl) (.inl rfl) (.inr rfl)
theorem xor (d a b : RegIdx) : Statement (.xor d a b) := legal_packWord _ _ _ _ _ .DAB rfl (.inl rfl) (.inl rfl) (.inl rfl) (.inr rfl)
theorem pow (d a b : RegIdx) : Statement (.pow d a b) := legal_packWord _ _ _ _ _ .DAB rfl (.inl rfl) (.inl rfl) (.inl rfl) (.inr rfl)
theorem mod (d a b : RegIdx) : Statement (.mod d a b) := legal_packWord _ _ _ _ _ .DAB rfl (.inl rfl) (.inl rfl) (.inl rfl) (.inr rfl)
theorem rshift (d a : RegIdx) : Statement (.rshift d a) := legal_packWord _ _ _ _ _ .DA rfl (.inl rfl) (.inl rfl) (.inr rfl) (.inr rfl)
theorem lshift (d a : RegIdx) : Statement (.lshift d a) := legal_packWord _ _ _ _ _ .DA rfl (.inl rfl) (.inl rfl) (.inr rfl) (.inr rfl)
theorem isqrt (d a : RegIdx) : Statement (.isqrt d a) := legal_packWord _ _ _ _ _ .DA rfl (.inl rfl) (.inl rfl) (.inr rfl) (.inr rfl)
theorem divmod (d e a b : RegIdx) : Statement (.divmod d e a b) := legal_packWord _ _ _ _ _ .DEAB rfl (.inl rfl) (.inl rfl) (.inl rfl) (.inl rfl)
theorem inc (d : RegIdx) : Statement (.inc d) := legal_packWord _ _ _ _ _ .D rfl (.inl rfl) (.inr rfl) (.inr rfl) (.inr rfl)
theorem dec (d : RegIdx) : Statement (.dec d) := legal_packWord _ _ _ _ _ .D rfl (.inl rfl) (.inr rfl) (.inr rfl) (.inr rfl)
theorem cmp (a b : RegIdx) : Statement (.cmp a b) := legal_packWord _ _ _ _ _ .AB rfl (.inr rfl) (.inl rfl) (.inl rfl) (.inr rfl)
theorem iszero (a : RegIdx) : Statement (.iszero a) := legal_packWord _ _ _ _ _ .A rfl (.inr rfl) (.inl rfl) (.inr rfl) (.inr rfl)
theorem init (d : RegIdx) : Statement (.init d) := legal_packWord _ _ _ _ _ .D rfl (.inl rfl) (.inr rfl) (.inr rfl) (.inr rfl)
theorem fromint (d : RegIdx) : Statement (.fromint d) := legal_packWord _ _ _ _ _ .D rfl (.inl rfl) (.inr rfl) (.inr rfl) (.inr rfl)
theorem toint (a : RegIdx) : Statement (.toint a) := legal_packWord _ _ _ _ _ .A rfl (.inr rfl) (.inl rfl) (.inr rfl) (.inr rfl)
theorem assign (d a : RegIdx) : Statement (.assign d a) := legal_packWord _ _ _ _ _ .DA rfl (.inl rfl) (.inl rfl) (.inr rfl) (.inr rfl)
theorem tostr (a : RegIdx) : Statement (.tostr a) := legal_packWord _ _ _ _ _ .A rfl (.inr rfl) (.inl rfl) (.inr rfl) (.inr rfl)
theorem fromstr (d : RegIdx) : Statement (.fromstr d) := legal_packWord _ _ _ _ _ .D rfl (.inl rfl) (.inr rfl) (.inr rfl) (.inr rfl)

end Sys2Proof.Laws.LegalWord
end

