-- ==== Sys2Proof/Tests/Slice0.lean ====
section
/-!
SUPPORT. Tests on fixed values and the witnesses of the statements. Expected values come from spec/95_test_vectors.md (the vector's name stands in the docstring) or are worked out by
hand from the rule named. Vectors are in its configuration T32: W = 8, N = 32, STRBUF_BYTES = 16.
-/

namespace Sys2Proof.Tests

open Sys2Proof Sys2Proof.Machine

/-! ### Well-formedness: an ill-formed term for each check -/

theorem test_wf_reference : Config.reference.Wf ∧ Config.small.Wf := by decide
theorem test_wf_wordBits : ¬({ Config.small with wordBits := 64 } : Config).wordBitsOk := by decide
theorem test_wf_total_not_multiple : ¬({ Config.small with totalBits := 33 } : Config).totalBitsOk := by decide
theorem test_wf_no_words : ¬({ Config.small with totalBits := 0 } : Config).totalBitsOk := by decide
theorem test_wf_too_many_words : ¬({ Config.small with totalBits := 8200, strbufBytes := 3000 } : Config).totalBitsOk := by decide
theorem test_wf_strbuf_small : ¬({ Config.small with strbufBytes := 8 } : Config).strbufOk := by decide
theorem test_wf_strbuf_large : ¬({ Config.small with strbufBytes := 16385 } : Config).strbufOk := by decide
theorem test_wf_latency : ¬({ Config.small with latMax := 0 } : Config).latencyOk := by decide
theorem test_legal_undefined_opcode : wordLegal 0x00000017 = false ∧ wordLegal 0x0000001F = false := by decide
theorem test_legal_bit_5 : wordLegal 0x00000020 = false := by decide
theorem test_legal_bit_24 : wordLegal 0x01021300 = false := by decide
theorem test_legal_unused_D : wordLegal 0x00001113 = false := by decide
theorem test_legal_unused_A : wordLegal 0x0000F10D = false := by decide
theorem test_legal_unused_B : wordLegal 0x00010013 = false := by decide
theorem test_legal_unused_E : wordLegal 0x00100300 = false := by decide
theorem test_legal_add : wordLegal 0x00021300 = true := by decide

/-! ### Decoding: words written out from R70, R71, R74 -/

theorem test_decode_add : decode 0x00021300 = some (.add 3 1 2) := by decide
theorem test_decode_sub : decode 0x00021301 = some (.sub 3 1 2) := by decide
theorem test_decode_mul : decode 0x00021302 = some (.mul 3 1 2) := by decide
theorem test_decode_div : decode 0x00021303 = some (.div 3 1 2) := by decide
theorem test_decode_and : decode 0x00021304 = some (.and 3 1 2) := by decide
theorem test_decode_or : decode 0x00021305 = some (.or 3 1 2) := by decide
theorem test_decode_xor : decode 0x00021306 = some (.xor 3 1 2) := by decide
theorem test_decode_pow : decode 0x00021307 = some (.pow 3 1 2) := by decide
theorem test_decode_mod : decode 0x00051608 = some (.mod 6 1 5) := by decide
theorem test_decode_rshift : decode 0x00002309 = some (.rshift 3 2) := by decide
theorem test_decode_lshift : decode 0x0000120A = some (.lshift 2 1) := by decide
theorem test_decode_isqrt : decode 0x0000130B = some (.isqrt 3 1) := by decide
theorem test_decode_divmod : decode 0x0042130C = some (.divmod 3 4 1 2) := by decide
theorem test_decode_inc : decode 0x0000010D = some (.inc 1) := by decide
theorem test_decode_dec : decode 0x0000020E = some (.dec 2) := by decide
theorem test_decode_cmp : decode 0x0000300F = some (.cmp 3 0) := by decide
theorem test_decode_iszero : decode 0x00002010 = some (.iszero 2) := by decide
theorem test_decode_init : decode 0x00000511 = some (.init 5) := by decide
theorem test_decode_fromint : decode 0x00000112 = some (.fromint 1) := by decide
theorem test_decode_toint : decode 0x00003013 = some (.toint 3) := by decide
theorem test_decode_assign : decode 0x0000F014 = some (.assign 0 15) := by decide
theorem test_decode_tostr : decode 0x00003015 = some (.tostr 3) := by decide
theorem test_decode_fromstr : decode 0x00000216 = some (.fromstr 2) := by decide
theorem test_decode_rejects : decode 0x00000017 = none ∧ decode 0x00000020 = none ∧ decode 0x01021300 = none ∧ decode 0x00100300 = none := by decide
theorem test_assembly : assemblyLine (.divmod 3 4 1 2) = "divmod r3, r4, r1, r2" := by decide

/-! ### One command on a small state -/

/-- T32 with x[1] = `x1`, x[2] = `x2` and ARG = `arg`; every other register and STRBUF unwritten. -/
def t32 (x1 x2 : Nat) (arg : Scalar) : State :=
  { ((State.resetWith Config.small).writeReg 1 x1).writeReg 2 x2 with arg := arg }

/-- T32 with a string in STRBUF. -/
def str32 (text : List Byte) (arg : Scalar) : State :=
  { (State.resetWith Config.small).writeBytes 0 text with arg := arg }

/-- What `f` sees after the host has written the command word `w` to CMD and the command has completed. -/
def after {α : Type} (w : Nat) (s : State) (f : State → α) : Option α :=
  match step (s.withFetchWord 32 w) with
  | .next t => some (f t.finish)
  | .fault _ => none
  | .refused _ => none

/-- Value of x[3] and STATUS. -/
def x3Status (t : State) : Nat × HostWord := (t.x 3, t.statusWord)

/-- RES and STATUS. -/
def resStatus (t : State) : Scalar × HostWord := (t.res, t.statusWord)

/-- A1. -/
theorem test_add : after 0x00021300 (t32 0x100 0x80 0) x3Status = some (0x180, 0) := by decide
/-- A2. -/
theorem test_add_wraps : after 0x00021300 (t32 0xFFFFFFFF 1 0) x3Status = some (0, 0) := by decide
/-- A9. -/
theorem test_sub : after 0x00021301 (t32 1 0x100 0) x3Status = some (0xFFFFFF01, 2) := by decide
/-- A10. -/
theorem test_sub_equal : after 0x00021301 (t32 0x12345678 0x12345678 0) x3Status = some (0, 0) := by decide
/-- A12, A13. -/
theorem test_inc : after 0x0000010D (t32 0xFFFF 0 0) (·.x 1) = some 0x10000 ∧
    after 0x0000010D (t32 0xFFFFFFFF 0 0) (·.x 1) = some 0 := by decide
/-- A15, A17. -/
theorem test_dec : after 0x0000010E (t32 0 0 0) (fun t => (t.x 1, t.statusWord)) = some (0xFFFFFFFF, 2) ∧
    after 0x0000010E (t32 1 0 0) (fun t => (t.x 1, t.statusWord)) = some (0, 0) := by decide
/-- B1. -/
theorem test_and : after 0x00021304 (t32 0xF0F0 0x3C3C 0) x3Status = some (0x3030, 0) := by decide
/-- B2. -/
theorem test_or : after 0x00021305 (t32 0xF0F0 0x3C3C 0) x3Status = some (0xFCFC, 0) := by decide
/-- B3. -/
theorem test_xor : after 0x00021306 (t32 0xF0F0 0x3C3C 0) x3Status = some (0xCCCC, 0) := by decide
/-- B14. -/
theorem test_lshift : after 0x0000130A (t32 0xFFFFFFFF 0 1) x3Status = some (0xFFFFFFFE, 0) := by decide
/-- B13. -/
theorem test_lshift_full_count : after 0x0000130A (t32 0x12345678 0 (BitVec.allOnes 64)) x3Status = some (0, 0) := by decide
/-- B19. -/
theorem test_rshift : after 0x00001309 (t32 0x12345678 0 12) x3Status = some (0x00012345, 0) := by decide
/-- B20. -/
theorem test_rshift_full_count : after 0x00001309 (t32 0x12345678 0 0x100000000) x3Status = some (0, 0) := by decide
/-- M2. -/
theorem test_mul_wraps : after 0x00021302 (t32 0xFFFFFFFF 0xFFFFFFFF 0) x3Status = some (1, 0) := by decide
/-- M5. -/
theorem test_mul : after 0x00021302 (t32 0x12345678 0x9ABCDEF0 0) x3Status = some (0x242D2080, 0) := by decide
/-- M12. -/
theorem test_divmod : after 0x0042130C (t32 0x12345678 0x1234 0) (fun t => (t.x 3, t.x 4)) = some (0x00010004, 0xDA8) := by decide
/-- M16. -/
theorem test_divmod_by_zero : after 0x0042130C (t32 0x12345678 0 0) (fun t => (t.regWritten 3, t.statusWord)) = some (false, 0x200) := by decide
/-- M17. -/
theorem test_div : after 0x00021303 (t32 0x12345678 0x1234 0) x3Status = some (0x00010004, 0) := by decide
/-- H5. -/
theorem test_div_aliased_by_zero : after 0x00021103 (t32 7 0 0) (fun t => (t.x 1, t.statusWord)) = some (7, 0x200) := by decide
/-- M18. -/
theorem test_mod : after 0x00021308 (t32 0x12345678 0x1234 0) x3Status = some (0xDA8, 0) := by decide
/-- M20, with the error log of R182. -/
theorem test_mod_by_zero : after 0x00021308 (t32 0xFFFFFFFF 0 0) (fun t => (t.statusWord, t.errLog)) =
    some (0x200, [{ word := 0x00021308, code := .divByZero }]) := by decide
/-- X12. -/
theorem test_pow : after 0x00021307 (t32 7 0x100 0) x3Status = some (0x0145D801, 0) := by decide
/-- X2. -/
theorem test_pow_zero_zero : after 0x00021307 (t32 0 0 0) x3Status = some (1, 0) := by decide
/-- Q8. -/
theorem test_isqrt : after 0x0000130B (t32 0x12345678 0 0) x3Status = some (0x4444, 0) := by decide
/-- Q11. -/
theorem test_isqrt_below_square : after 0x0000130B (t32 0xFFFE0000 0 0) x3Status = some (0xFFFE, 0) := by decide
/-- V11. -/
theorem test_cmp_smaller : after 0x0002100F (t32 0x80 0x100 0) resStatus = some (0xFFFFFFFFFFFFFFFF, 0) := by decide
/-- V14. -/
theorem test_cmp_high_word : after 0x0002100F (t32 0x01000000 0x00FFFFFF 0) resStatus = some (1, 0) := by decide
/-- V15, V16. -/
theorem test_iszero : after 0x00001010 (t32 0 0 0) resStatus = some (1, 0) ∧
    after 0x00001010 (t32 0x80000000 0 0) resStatus = some (0, 0) := by decide
/-- R4 of section 8.4 of the vectors: legal right after reset. -/
theorem test_init : after 0x00000111 (State.resetWith Config.small) (fun t => (t.words 1, t.regWritten 1)) = some ([0, 0, 0, 0], true) := by decide
/-- V2. -/
theorem test_fromint : after 0x00000112 (t32 0 0 0x112345678) (·.words 1) = some [0x78, 0x56, 0x34, 0x12] := by decide
/-- V5. -/
theorem test_toint : after 0x00001013 (t32 0xFFFFFFFF 0 0) resStatus = some (0xFFFFFFFF, 0) := by decide
/-- V6: W = 32, N = 1024. -/
theorem test_toint_truncates : after 0x00001013 (State.reset.writeReg 1 (2 ^ 64 + 5)) (·.res) = some 5 := by decide
/-- V8. -/
theorem test_assign : after 0x00001214 (t32 0xABC 0 0) (fun t => (t.x 2, t.x 1)) = some (0xABC, 0xABC) := by decide
/-- V9. -/
theorem test_assign_self : after 0x00001114 (t32 0xDEADBEEF 0 0) (·.x 1) = some 0xDEADBEEF := by decide
/-- T4: capacity exactly L + 1. -/
theorem test_tostr : after 0x00001015 (t32 0xABCD 0 5) (fun t => (t.strbuf, t.res)) =
    some ([(0, 0x61), (1, 0x62), (2, 0x63), (3, 0x64), (4, 0)], 4) := by decide
/-- T5, T8: the two errors. -/
theorem test_tostr_errors : after 0x00001015 (t32 0xABCD 0 4) (fun t => (t.statusWord, t.strbuf)) = some (0x500, []) ∧
    after 0x00001015 (t32 0xABCD 0 17) (·.statusWord) = some 0x600 := by decide
/-- F1. -/
theorem test_fromstr : after 0x00000216 (str32 [0x41, 0x42, 0x63, 0x64] 4) (fun t => (t.x 2, t.statusWord)) = some (0xABCD, 0) := by decide
/-- F3, F4, F11, F2. -/
theorem test_fromstr_errors : after 0x00000216 (str32 [0x30, 0x67] 2) (·.statusWord) = some 0x300 ∧
    after 0x00000216 (str32 [] 9) (·.statusWord) = some 0x400 ∧ after 0x00000216 (str32 [] 17) (·.statusWord) = some 0x600 ∧
    after 0x00000216 (str32 [] 0) (·.x 2) = some 0 := by decide
/-- E5. -/
theorem test_illegal_command : after 0x00000017 (t32 1 2 3) (fun t => (t.statusWord, t.x 1, t.arg)) = some (0x100, 1, 3) := by decide

/-! ### The window, the hazards, reset -/

/-- What the host gets from one event, and the state after it. -/
def afterEvent {α : Type} (e : HostEvent) (s : State) (f : State → α) : Option α :=
  match step { s with bus := [e] } with
  | .next t => some (f t)
  | .fault _ => none
  | .refused _ => none

/-- The reason a step faults. -/
def faultOf (e : HostEvent) (s : State) : Option Fault :=
  match step { s with bus := [e] } with
  | .next _ => none
  | .fault r => some r
  | .refused _ => none

/-- T32 with an ADD in flight for which one more STATUS read returns BUSY = 1. -/
def busy32 : State :=
  { t32 1 2 0 with
    inflight := some { word := 0x00021300, snapshot := some ((t32 1 2 0).snapshot (.add 3 1 2)), shownUf := true, shownErr := .noError, busyReads := 1, cycles := 3 } }

/-- W1 to W3, W5, W6, W8. -/
theorem test_window_reads : afterEvent (.read 32 0x18) (t32 0 0 0) (·.replies) = some [0x10000408] ∧
    afterEvent (.read 32 0x1C) (t32 0 0 0) (·.replies) = some [0x10] ∧ afterEvent (.read 32 0x0) (t32 0 0 0) (·.replies) = some [0] ∧
    afterEvent (.read 32 0x11010) (t32 0 0 0) (·.replies) = some [0] ∧ afterEvent (.read 32 0x20) (t32 0 0 0) (·.replies) = some [0] ∧
    afterEvent (.read 32 0x20040) (t32 0 0 0) (·.replies) = some [0] := by decide
/-- 1.3 of the vectors: word 0 is the least significant. -/
theorem test_window_word_order : afterEvent (.read 32 0x11000) (t32 0x12345678 0 0) (·.replies) = some [0x78] := by decide
/-- W4. -/
theorem test_window_word_write : afterEvent (.write 32 0x11000 0x1FF) (t32 0 0 0) (·.words 1) = some [0xFF, 0, 0, 0] := by decide
/-- W7. -/
theorem test_window_byte_write : afterEvent (.write 32 0x2000C 0x141) (t32 0 0 0) (·.strbuf) = some [(3, 0x41)] := by decide
/-- W9, W10. -/
theorem test_window_scalars : afterEvent (.write 32 0xC 1) (t32 0 0 8) (·.arg) = some 0x100000008 ∧
    afterEvent (.write 32 0x10 5) (t32 0 0 0) (·.res) = some 0 := by decide
/-- W11. -/
theorem test_window_undefined_access : faultOf (.read 16 0x4) (t32 0 0 0) = some .badAccess ∧ faultOf (.read 32 0x2) (t32 0 0 0) = some .badAccess := by decide
/-- H1, H2. -/
theorem test_hazards : faultOf (.read 32 0x10) busy32 = some .busyHazard ∧ faultOf (.write 32 0x0 0) busy32 = some .busyHazard := by decide
/-- H3, and a STATUS read while BUSY = 1 (R29: UF and ERR of the last completed command). -/
theorem test_busy_reads : afterEvent (.read 32 0x18) busy32 (·.replies) = some [0x10000408] ∧
    afterEvent (.read 32 0x4) busy32 (·.replies) = some [0x3] := by decide
/-- The poll loop: one more BUSY = 1 read, then BUSY = 0 (R81, R211). -/
theorem test_poll : afterEvent .poll busy32 (fun t => (t.bus, t.busy)) = some ([.poll], true) := by decide
/-- R1 of section 8.4 of the vectors. -/
theorem test_reset_reads : afterEvent (.read 32 0x4) (State.resetWith Config.small) (·.replies) = some [0] ∧
    afterEvent (.read 32 0x10) (State.resetWith Config.small) (·.replies) = some [0] := by decide
/-- R200: reset ends a command in flight. -/
theorem test_reset_input : afterEvent .reset busy32 (fun t => (t.busy, t.regWritten 1, t.statusWord)) = some (false, false, 0) := by decide
/-- The model's own reading of R55 (log entry 8): a 64-bit access that starts below the window and reaches into it faults; a 32-bit one that ends at BASE does not. -/
theorem test_reaches_window : faultOf (.read 64 0xFFC) { t32 1 2 3 with cfg := { Config.small with base := 0x1000 } } = some .badAccess ∧
    faultOf (.read 32 0xFFC) { t32 1 2 3 with cfg := { Config.small with base := 0x1000 } } = none := by decide
/-- The model's own reading of R50 and R51 (log entry 8): an address outside the window does nothing. -/
theorem test_outside_window : afterEvent (.write 32 0x100000 5) (t32 1 2 3) (fun t => (t.arg, t.x 1, t.replies)) = some (3, 1, []) := by decide
/-- R2 and R5 of section 8.4 of the vectors: the strict step. -/
theorem test_strict : strictStep ((State.resetWith Config.small).withFetchWord 32 0x00021300) = .fault .unwrittenOperand := rfl

/-! ### Witnesses: states and operands that meet each statement's hypotheses -/

/-- A T32 state that meets the invariant: x[1] = 0x100, x[2] = 0x80, ARG = 9, "12" in STRBUF, everything else unwritten. -/
def demo : State := { t32 0x100 0x80 9 with strbuf := [(0, 0x31), (1, 0x32)] }

/-- `demo` with x[2] = 0. -/
def demoZero : State := demo.writeReg 2 0

/-- `demo` with another ARG. -/
def demoArg (v : Scalar) : State := { demo with arg := v }

/-- `demo` with host events to come. -/
def demoBus (es : List HostEvent) : State := { demo with bus := es }

/-- `demo` with a command in flight. -/
def demoBusy (es : List HostEvent) : State := { demo with inflight := busy32.inflight, bus := es }

/-- `demo` at another BASE. -/
def demoBase (es : List HostEvent) : State := { demo with cfg := { Config.small with base := 0x1000 }, bus := es }

theorem witness_inv_demoBusy : (demoBusy []).Inv := by decide
theorem witness_inv_demoBase : (demoBase []).Inv := by decide

theorem witness_EncodeInvertsDecode : decode 0x0042130C = some (.divmod 3 4 1 2) := by decide
theorem witness_IllegalWordCompletesWithError : decode 0x00000017 = none ∧ wordLegal 0x00000017 = false ∧ wordLegal 0x00021300 = true := by decide
theorem witness_StepRunsDecodedCommand_event : demo.cfg.Wf ∧ demo.busy = false ∧
    (demoBus [cmdEvent demo.cfg 0x00021300]).bus = cmdEvent demo.cfg 0x00021300 :: [] ∧ decode 0x00021300 = some (.add 3 1 2) := by decide
theorem witness_StepRunsDecodedCommand_illegal : demo.cfg.Wf ∧ demo.busy = false ∧
    (demoBus [cmdEvent demo.cfg 0x00000017]).bus = cmdEvent demo.cfg 0x00000017 :: [] ∧ decode 0x00000017 = none := by decide
theorem witness_StepRunsDecodedCommand_fetch : demo.cfg.Wf ∧ decodeTableWord 32 0x00021300 = some (.add 3 1 2) := by decide
theorem witness_ResetMeetsInvariant : Config.small.Wf ∧ ({ Config.small with wordBits := 16 } : Config).Wf := by decide
theorem witness_StepKeepsInvariant_command : ∃ t, (demo.withFetchWord 32 0x00021300).Inv ∧ step (demo.withFetchWord 32 0x00021300) = .next t :=
  ⟨_, by decide, rfl⟩
theorem witness_StepKeepsInvariant_cycle : ∃ t, (demoBusy []).Inv ∧ step (demoBusy []) = .next t := ⟨_, by decide, rfl⟩
theorem witness_ResetInputResets : demo.cfg.Wf ∧ (demoBusy [.reset]).bus = .reset :: [] := by decide
theorem witness_ConfigurationIsConstant : ∃ t, demo.cfg.Wf ∧ step (demoBus [.write 32 0x18 5]) = .next t := ⟨_, by decide, rfl⟩
theorem witness_ConfigurationIsConstant_reads : demo.cfg.Wf ∧ (demoBus [.read 32 0x18]).bus = .read 32 (demo.cfg.base + 0x18) :: [] ∧
    (demoBusy [.read 32 0x1C]).bus = .read 32 (demo.cfg.base + 0x1C) :: [] ∧ (demoBusy []).busy = true := by decide
theorem witness_ConfigurationIsConstant_writes : demo.cfg.Wf ∧ demo.busy = false ∧
    (demoBus [.write 32 0x18 5]).bus = .write 32 (demo.cfg.base + 0x18) 5 :: [] ∧
    (demoBus [.write 32 0x1C 5]).bus = .write 32 (demo.cfg.base + 0x1C) 5 :: [] := by decide
theorem witness_InitWritesZero : demo.cfg.Wf := by decide
theorem witness_FromintLoadsArg_words : State.reset.cfg.Wf ∧ (1 : Nat) < State.reset.cfg.wordCount ∧ (31 : Nat) < State.reset.cfg.wordCount ∧
    64 ≤ State.reset.cfg.wordBits * 2 := by decide
theorem witness_AssignCopies : demo.Inv := by decide
theorem witness_ScanComparesValues : WordsOk 8 [0, 0, 1] [255, 255, 0] := ⟨rfl, by decide, by decide⟩
theorem witness_AddIsSumModM : demo.cfg.Wf ∧ aliased (.add 3 1 2) = false ∧ aliased (.add 1 1 2) = true := by decide
theorem witness_SubWrapsAndReports : demo.Inv ∧ demo.x 2 < demo.x 1 ∧ aliased (.sub 3 2 1) = false ∧ aliased (.sub 3 1 2) = false := by decide
theorem witness_IncDecInPlace : demo.Inv ∧ demoZero.Inv ∧ demoZero.x 2 = 0 := by decide
theorem witness_CarryAddIsSum : WordsOk 8 [255, 255] [1, 0] := ⟨rfl, by decide, by decide⟩
theorem witness_BorrowSubIsDifference : WordsOk 8 [0, 1] [1, 0] ∧ WordsOk 8 [0, 0] [1, 0] :=
  ⟨⟨rfl, by decide, by decide⟩, rfl, by decide, by decide⟩
theorem witness_RippleIsIncDec : ∀ x ∈ [255, 0, 7], x < 2 ^ 8 := by decide
theorem witness_BitwiseActsPerWord : demo.Inv ∧ aliased (.and 3 1 2) = false ∧ aliased (.or 3 1 2) = false ∧ aliased (.xor 3 1 2) = false ∧
    (3 : Nat) < demo.cfg.wordCount := by decide
theorem witness_LshiftMultiplies : demo.cfg.Wf ∧ aliased (.lshift 3 1) = false := by decide
theorem witness_RshiftDivides : demo.Inv ∧ aliased (.rshift 3 1) = false := by decide
theorem witness_BarrelShifterShifts : 0 < 8 ∧ ∀ x ∈ [0x78, 0x56, 0x34, 0x12], x < 2 ^ 8 := by decide
theorem witness_MulIsProductModM : demo.cfg.Wf ∧ aliased (.mul 3 1 2) = false := by decide
theorem witness_SchoolbookIsProduct : [1, 2, 3].length = [255, 255, 255].length := by decide
theorem witness_DivmodQuotientRemainder_divides : demo.Inv ∧ demo.x 2 ≠ 0 ∧ aliased (.divmod 3 4 1 2) = false := by decide
theorem witness_DivmodQuotientRemainder_zero : demoZero.Inv ∧ demoZero.x 2 = 0 := by decide
theorem witness_DivAndModOutputs : demo.Inv ∧ demo.x 2 ≠ 0 ∧ demoZero.Inv ∧ demoZero.x 2 = 0 ∧ aliased (.div 3 1 2) = false := by decide
theorem witness_LongDivisionDivides : 0x12345678 < 2 ^ 32 ∧ 0x1234 ≠ 0 := by decide
theorem witness_PowIsPowerModM : demo.Inv ∧ aliased (.pow 3 1 2) = false := by decide
theorem witness_IsqrtIsFloorRoot : demo.Inv ∧ aliased (.isqrt 3 1) = false := by decide
theorem witness_TostrRenders_badLength : (demoArg 17).Inv ∧ (demoArg 17).cfg.strbufBytes < (demoArg 17).arg.toNat := by decide
/-- x[1] = 0x100 has three digits: capacity 3 is one too small, capacity 4 is the least that suffices, 16 the largest. -/
theorem witness_TostrRenders_capacity : (demoArg 3).Inv ∧ (hexDigits demo.cfg.maxDigits (demo.x 1)).length = 3 ∧
    (demoArg 3).arg.toNat < 3 + 1 ∧ 3 + 1 ≤ (demoArg 4).arg.toNat ∧ (demoArg 4).Inv ∧ (demoArg 16).arg.toNat ≤ demo.cfg.strbufBytes := by decide
/-- x[2] = 0 meets the clause for the value 0. -/
theorem witness_TostrRenders_zero : demoZero.Inv ∧ demoZero.x 2 = 0 ∧ demoZero.x 1 ≠ 0 := by decide
theorem witness_FromstrParses_badLength : (demoArg 17).Inv ∧ (demoArg 17).cfg.strbufBytes < (demoArg 17).arg.toNat := by decide
theorem witness_FromstrParses_tooLong : (demoArg 9).Inv ∧ (demoArg 9).arg.toNat ≤ 16 ∧ (demoArg 9).cfg.totalBits / 4 < (demoArg 9).arg.toNat ∧
    (demoArg 16).arg.toNat ≤ (demoArg 16).cfg.strbufBytes := by decide
theorem witness_FromstrParses_badDigit : ∃ s : State, s.Inv ∧ s.arg.toNat ≤ s.cfg.totalBits / 4 ∧ ∃ j < s.arg.toNat, digitValue (s.strByte j) = none :=
  ⟨str32 [0x31, 0x67] 2, by decide, by decide, 1, by decide, by decide⟩
theorem witness_FromstrParses_parses : (demoArg 2).Inv ∧ (demoArg 2).arg.toNat ≤ (demoArg 2).cfg.totalBits / 4 ∧
    ∀ j < (demoArg 2).arg.toNat, digitValue ((demoArg 2).strByte j) ≠ none := by decide
theorem witness_FromstrParses_empty : (demoArg 0).Inv ∧ (demoArg 0).arg.toNat ≤ (demoArg 0).cfg.totalBits / 4 := by decide
theorem witness_StringRoundTrip : (demoArg 9).Inv ∧ (demoArg 9).cfg.totalBits / 4 + 1 ≤ (demoArg 9).arg.toNat ∧
    (demoArg 16).Inv ∧ (demoArg 16).arg.toNat ≤ (demoArg 16).cfg.strbufBytes := by decide
theorem witness_AliasedDestinationsAreFree : ∃ t, demo.cfg.Wf ∧ aliased (.add 1 1 2) = true ∧ exec (.add 1 1 2) demo = .next t ∧
    t.err = .noError ∧ (1 : RegIdx) ∈ destinations (.add 1 1 2) := ⟨_, by decide, by decide, rfl, by decide, by decide⟩
theorem witness_AliasedDestinationsAreFree_divmod : ∃ t, aliased (.divmod 3 3 1 2) = true ∧ exec (.divmod 3 3 1 2) demo = .next t ∧
    t.err = .noError := ⟨_, by decide, rfl, by decide⟩
theorem witness_UfOnlyFromSubAndDec : ∃ t u, exec (.sub 3 2 1) demo = .next t ∧ t.uf = true ∧ exec (.div 3 1 2) demoZero = .next u ∧
    u.err ≠ .noError := ⟨_, _, rfl, by decide, rfl, by decide⟩
theorem witness_ErrorsByCommand : ∃ t, demoZero.cfg.Wf ∧ exec (.divmod 3 4 1 2) demoZero = .next t ∧ t.err = .divByZero :=
  ⟨_, by decide, rfl, by decide⟩
theorem witness_ErrorsByCommand_codes : ∃ t u v w, exec (.tostr 1) (demoArg 17) = .next t ∧ t.err = .badLength ∧
    exec (.fromstr 5) (demoArg 9) = .next u ∧ u.err = .strTooLong ∧ exec (.tostr 1) (demoArg 3) = .next v ∧ v.err = .bufTooSmall ∧
    exec (.fromstr 5) (str32 [0x67] 1) = .next w ∧ w.err = .badDigit :=
  ⟨_, _, _, _, rfl, by decide, rfl, by decide, rfl, by decide, rfl, by decide⟩
theorem witness_ErrorsArePrecise : ∃ t, exec (.mod 3 1 2) demoZero = .next t ∧ t.err ≠ .noError := ⟨_, rfl, by decide⟩
theorem witness_SnapshotDeterminesResult : ∃ t t', demo.Inv ∧ (demo.writeReg 7 5).Inv ∧ demo.cfg = (demo.writeReg 7 5).cfg ∧
    demo.draws = (demo.writeReg 7 5).draws ∧ demo.snapshot (.add 3 1 2) = (demo.writeReg 7 5).snapshot (.add 3 1 2) ∧
    exec (.add 3 1 2) demo = .next t ∧ exec (.add 3 1 2) (demo.writeReg 7 5) = .next t' ∧ t.err = .noError :=
  ⟨_, _, by decide, by decide, rfl, rfl, by decide, rfl, rfl, by decide⟩
/-- Two states that differ in RES and in STRBUF, and the two commands that write those. -/
def demoOther : State := { demo with res := 77, strbuf := [(0, 0x39), (5, 0x38)] }

theorem witness_SnapshotDeterminesResult_cmp : ∃ t t', demo.Inv ∧ demoOther.Inv ∧ demo.cfg = demoOther.cfg ∧ demo.draws = demoOther.draws ∧
    demo.snapshot (.cmp 1 2) = demoOther.snapshot (.cmp 1 2) ∧ demo.res ≠ demoOther.res ∧ exec (.cmp 1 2) demo = .next t ∧
    exec (.cmp 1 2) demoOther = .next t' ∧ t.err = .noError := ⟨_, _, by decide, by decide, rfl, rfl, by decide, by decide, rfl, rfl, by decide⟩
theorem witness_SnapshotDeterminesResult_tostr : ∃ t t', demo.Inv ∧ demoOther.Inv ∧ demo.cfg = demoOther.cfg ∧ demo.draws = demoOther.draws ∧
    demo.snapshot (.tostr 1) = demoOther.snapshot (.tostr 1) ∧ demo.strbuf ≠ demoOther.strbuf ∧ exec (.tostr 1) demo = .next t ∧
    exec (.tostr 1) demoOther = .next t' ∧ t.err = .noError ∧ 3 ≤ t.res.toNat :=
  ⟨_, _, by decide, by decide, rfl, rfl, by decide, by decide, rfl, rfl, by decide, by decide⟩
theorem witness_StrictStopsOnUnwrittenOperands_other : (demoBus [.read 32 0x4]).nextCommand = none ∧ (demoBus [.poll]).nextCommand = none ∧
    (demoBus []).nextCommand = none := by decide
theorem witness_StrictStopsOnUnwrittenOperands : (demo.withFetchWord 32 0x00021300).nextCommand = some (.add 3 1 2) ∧
    (demo.withFetchWord 32 0x00051300).nextCommand = some (.add 3 1 5) ∧ (∃ x ∈ demo.regs[(5 : RegIdx)], x.written = false) ∧
    ¬∃ x ∈ demo.regs[(1 : RegIdx)], x.written = false := by decide
theorem witness_StrictStopsOnUnwrittenOperands_string : ((demoArg 3).withFetchWord 32 0x00000216).nextCommand = some (.fromstr 2) ∧
    (demoArg 3).arg.toNat ≤ 8 ∧ Memory.read? (demoArg 3).strbuf 2 = none ∧ Memory.read? (demoArg 3).strbuf 1 ≠ none := by decide
theorem witness_StrictStopsOnUnwrittenOperands_runs : strictStep (demo.withFetchWord 32 0x00021300) ≠ .fault .unwrittenOperand := nofun
theorem witness_ScalarRegistersChangeOnlyBy_res : ∃ t, step (demo.withFetchWord 32 0x0002100F) = .next t ∧
    (demo.withFetchWord 32 0x0002100F).bus.head? ≠ some .reset ∧ t.res ≠ demo.res := ⟨_, rfl, by decide, by decide⟩
theorem witness_ScalarRegistersChangeOnlyBy_arg : ∃ t, step (demoBus [.write 32 0xC 1]) = .next t ∧
    (demoBus [.write 32 0xC 1]).bus.head? ≠ some .reset ∧ t.arg ≠ demo.arg := ⟨_, rfl, by decide, by decide⟩
theorem witness_StorageChangesOnlyBy_command : ∃ t, step (demo.withFetchWord 32 0x00000111) = .next t ∧
    (demo.withFetchWord 32 0x00000111).bus.head? ≠ some .reset ∧ t.regs[(1 : RegIdx)] ≠ demo.regs[(1 : RegIdx)] := ⟨_, rfl, by decide, by decide⟩
theorem witness_StorageChangesOnlyBy_string : ∃ t, step (demoBus [.write 32 0x20004 0x33]) = .next t ∧
    (demoBus [.write 32 0x20004 0x33]).bus.head? ≠ some .reset ∧ Memory.read? t.strbuf 1 ≠ Memory.read? demo.strbuf 1 := ⟨_, rfl, by decide, by decide⟩
theorem witness_ErrorLogIsSticky_command : ∃ t, step (demoBus [cmdEvent demo.cfg 0x00000017]) = .next t ∧
    (demoBus [cmdEvent demo.cfg 0x00000017]).bus.head? ≠ some .reset ∧ t.err ≠ .noError := ⟨_, rfl, by decide, by decide⟩
theorem witness_ErrorLogIsSticky_success : ∃ t, step (demoBus [cmdEvent demo.cfg 0x00021300]) = .next t ∧ t.err = .noError := ⟨_, rfl, by decide⟩
theorem witness_ErrorLogIsSticky_other : ∃ t, step (demoBus [.read 32 0x4]) = .next t ∧ (demoBus [.read 32 0x4]).bus.head? ≠ some .reset ∧
    ¬∃ w rest, (demoBus [.read 32 0x4]).bus = cmdEvent demo.cfg w :: rest := ⟨_, rfl, by decide, nofun⟩
/-- Register 15, the last word below K and the first and last slots at or above K. -/
theorem witness_BigNumberWindow : demo.Inv ∧ demo.busy = false ∧
    (demoBus [.read 32 (0x10000 + 0x1000 * 15 + 4 * 3)]).bus = .read 32 (demo.cfg.base + 0x10000 + 0x1000 * (15 : RegIdx).val + 4 * 3) :: [] ∧
    (demoBus [.write 32 (0x10000 + 0x1000 * 15 + 4 * 4) 7]).bus = .write 32 (demo.cfg.base + 0x10000 + 0x1000 * (15 : RegIdx).val + 4 * 4) 7 :: [] ∧
    (3 : Nat) < demo.cfg.wordCount ∧ demo.cfg.wordCount ≤ 4 ∧ (1023 : Nat) < 1024 := by decide
theorem witness_BigNumberWindow_write : demo.Inv ∧ demo.busy = false ∧ (3 : Nat) < demo.cfg.wordCount ∧
    (demoBus [.write 32 (0x10000 + 0x1000 * 15 + 4 * 3) 7]).bus = .write 32 (demo.cfg.base + 0x10000 + 0x1000 * (15 : RegIdx).val + 4 * 3) 7 :: [] := by decide
theorem witness_StrbufWindow_write : demo.Inv ∧ demo.busy = false ∧ (15 : Nat) < demo.cfg.strbufBytes ∧
    (demoBus [.write 32 (0x20000 + 4 * 15) 7]).bus = .write 32 (demo.cfg.base + 0x20000 + 4 * 15) 7 :: [] := by decide
theorem witness_StrbufWindow : demo.Inv ∧ demo.busy = false ∧
    (demoBus [.read 32 (0x20000 + 4 * 15)]).bus = .read 32 (demo.cfg.base + 0x20000 + 4 * 15) :: [] ∧
    (demoBus [.write 32 (0x20000 + 4 * 16) 7]).bus = .write 32 (demo.cfg.base + 0x20000 + 4 * 16) 7 :: [] ∧
    (15 : Nat) < demo.cfg.strbufBytes ∧ demo.cfg.strbufBytes ≤ 16 ∧ (16383 : Nat) < 16384 := by decide
theorem witness_ReservedSlotsReadZero : demo.cfg.Wf ∧ demo.busy = false ∧ ((0x20 ≤ 0x20 ∧ 0x20 ≤ 0xFFFF) ∧ 0x20 % 4 = 0) ∧
    ((0x30000 ≤ 0xFFFFC ∧ 0xFFFFC ≤ 0xFFFFF) ∧ 0xFFFFC % 4 = 0) ∧
    (demoBus [.read 32 0x20]).bus = .read 32 (demo.cfg.base + 0x20) :: [] ∧
    (demoBus [.write 32 0xFFFFC 5]).bus = .write 32 (demo.cfg.base + 0xFFFFC) 5 :: [] := by decide
/-- The first and the last control slot; a write starts at STATUS. -/
theorem witness_ControlSlots_idle : demo.cfg.Wf ∧ demo.busy = false ∧ (demoBus [.read 32 0x0]).bus = .read 32 (demo.cfg.base + 0x0) :: [] ∧
    (demoBus [.read 32 0x1C]).bus = .read 32 (demo.cfg.base + 0x1C) :: [] ∧ (demoBus [.write 32 0x4 9]).bus = .write 32 (demo.cfg.base + 0x4) 9 :: [] := by decide
theorem witness_ControlSlots_status : ∃ f, demo.cfg.Wf ∧ (demoBusy [.read 32 0x4]).inflight = some f ∧ f.busyReads = 0 + 1 ∧
    (demoBusy [.read 32 0x4]).bus = .read 32 (demo.cfg.base + 0x4) :: [] := ⟨_, by decide, rfl, rfl, rfl⟩
theorem witness_ControlSlots_status_last : ∃ s : State, ∃ f, s.cfg.Wf ∧ s.inflight = some f ∧ f.busyReads = 0 ∧ s.bus = .read 32 (s.cfg.base + 0x4) :: [] :=
  ⟨{ demoBusy [.read 32 0x4] with inflight := busy32.inflight.map fun f => { f with busyReads := 0 } }, _, by decide, rfl, rfl, rfl⟩
/-- The first and the last address of the window, and one that is 32 bits wide at a multiple of 4. -/
theorem witness_UndefinedAccessFaults : (demoBase []).cfg.Wf ∧ (demoBase [.read 16 0x1000]).bus = .read 16 0x1000 :: [] ∧
    (demoBase [.write 32 0x100FFF 0]).bus = .write 32 0x100FFF 0 :: [] ∧ (demoBase []).cfg.base ≤ 0x1000 ∧
    0x100FFF < (demoBase []).cfg.base + 2 ^ 20 ∧ (0x1004 - (demoBase []).cfg.base) % 4 = 0 := by decide
theorem witness_BusyHazardFaults : demo.cfg.Wf ∧ (demoBusy [.read 32 0x10]).bus = .read 32 (demo.cfg.base + 0x10) :: [] ∧ (demoBusy []).busy = true ∧
    demo.busy = false ∧ (demoBus [.write 32 0xFFFFC 0]).bus = .write 32 (demo.cfg.base + 0xFFFFC) 0 :: [] := by decide
theorem witness_BadConfigurationIsRefused : ¬(State.resetWith { Config.small with wordBits := 64 }).cfg.Wf ∧
    step (State.resetWith { Config.small with wordBits := 64 }) = .refused .badConfig := ⟨by decide, rfl⟩
/-- The model's own bound on LAT_MAX (log entry 1). -/
theorem witness_BadConfigurationIsRefused_latency : ¬(State.resetWith { Config.small with latMax := 0 }).cfg.Wf ∧
    step (State.resetWith { Config.small with latMax := 0 }) = .refused .badConfig := ⟨by decide, rfl⟩
theorem witness_PollEndsWithBusyZero : ∃ f, demo.cfg.Wf ∧ (demoBusy [.poll]).inflight = some f ∧ f.busyReads = 1 ∧ (demoBusy [.poll]).bus = .poll :: [] :=
  ⟨_, by decide, rfl, rfl, rfl⟩
theorem witness_LatencyIsBounded : (demoBusy []).Inv ∧ (demoBusy []).busy = true ∧ (demoBusy []).bus = [] := by decide
theorem witness_CommandsStartBusy : demo.cfg.Wf := by decide
theorem witness_IdleChangesNothing : demo.cfg.Wf ∧ demo.busy = false ∧ demo.bus = [] := by decide
/-- The last word below the window, the first address above it, and a 64-bit access that reaches into it. -/
theorem witness_IdleChangesNothing_outside : (demoBase []).cfg.Wf ∧ (demoBase [.read 32 0xFFC]).bus = .read 32 0xFFC :: [] ∧
    0xFFC < (demoBase []).cfg.base ∧ 0xFFC + (32 + 7) / 8 ≤ (demoBase []).cfg.base ∧ (demoBase []).cfg.base + 2 ^ 20 ≤ 0x101000 := by decide
theorem witness_IdleChangesNothing_reaches : (demoBase []).cfg.Wf ∧ (demoBase [.write 64 0xFFC 0]).bus = .write 64 0xFFC 0 :: [] ∧
    0xFFC < (demoBase []).cfg.base ∧ (demoBase []).cfg.base < 0xFFC + (64 + 7) / 8 := by decide
theorem witness_SetargSetsArg : demo.cfg.Wf ∧ demo.busy = false ∧
    (demoBus (expand demo.cfg (.setarg 0x100000008))).bus = expand demo.cfg (.setarg 0x100000008) ++ [] := by decide

end Sys2Proof.Tests
end

section
/-!
PROOFS. The two ends of the configuration's scope (R6, R7): the reset state of a legal configuration meets the invariant, and only an illegal configuration is refused.
-/

namespace Sys2Proof.Machine

/-! ### Reset -/

/-- Every register of the reset state is K unwritten words (R201). -/
theorem State.resetWith_regs_getElem (c : Config) (r : RegIdx) :
    (State.resetWith c).regs[r] = List.replicate c.wordCount { val := 0, written := false } := by
  simp [State.resetWith]

theorem State.resetWith_regsWf (c : Config) : (State.resetWith c).RegsWf := by
  intro r
  rw [State.resetWith_regs_getElem]
  refine ⟨List.length_replicate, fun x hx => ?_⟩
  rw [List.eq_of_mem_replicate hx]
  exact Nat.two_pow_pos _

theorem State.resetWith_strbufWf (c : Config) : (State.resetWith c).StrbufWf :=
  ⟨Memory.wf_nil, fun _ hx => absurd hx List.not_mem_nil⟩

theorem State.resetWith_statusWf (c : Config) : (State.resetWith c).StatusWf :=
  ⟨fun he => absurd rfl he, fun _ hx => absurd hx List.not_mem_nil⟩

theorem State.resetWith_inFlightWf (c : Config) : (State.resetWith c).InFlightWf := nofun

/-- The reset state meets every part of the invariant but the legality of its configuration, which is the caller's (R7, R201). -/
theorem State.resetWith_inv {c : Config} (hc : c.Wf) : (State.resetWith c).Inv :=
  ⟨hc, State.resetWith_regsWf c, State.resetWith_strbufWf c, State.resetWith_statusWf c, State.resetWith_inFlightWf c⟩

/-- The reference configuration of R6 is legal. -/
theorem Config.reference_wf : Config.reference.Wf := by decide

/-! ### Refusals: every host event answers a next state or a fault -/

/-- A CMD write is answered: an illegal word completes with ILLEGAL_CMD, a legal one is executed (R77). -/
theorem cmdWrite_ne_refused (w : HostWord) (s : State) (q : Refusal) : cmdWrite w s ≠ .refused q := by
  unfold cmdWrite
  split
  · exact nofun
  · rw [exec_eq]
    exact nofun

theorem readSlot_ne_refused (slot : Slot) (s : State) (q : Refusal) : readSlot slot s ≠ .refused q := by
  unfold readSlot
  split
  · exact nofun
  · split <;> exact nofun

theorem writeSlot_ne_refused (slot : Slot) (data : HostWord) (s : State) (q : Refusal) :
    writeSlot slot data s ≠ .refused q := by
  unfold writeSlot
  split
  · exact nofun
  · split
    · exact cmdWrite_ne_refused data s q
    · exact nofun

theorem accessOutside_ne_refused (width addr : Nat) (s : State) (q : Refusal) :
    accessOutside width addr s ≠ .refused q := by
  unfold accessOutside
  split <;> exact nofun

theorem hostRead_ne_refused (width addr : Nat) (s : State) (q : Refusal) : hostRead width addr s ≠ .refused q := by
  unfold hostRead
  split
  · exact accessOutside_ne_refused width addr s q
  · split
    · exact readSlot_ne_refused _ s q
    · exact nofun

theorem hostWrite_ne_refused (width addr : Nat) (data : HostWord) (s : State) (q : Refusal) :
    hostWrite width addr data s ≠ .refused q := by
  unfold hostWrite
  split
  · exact accessOutside_ne_refused width addr s q
  · split
    · exact writeSlot_ne_refused _ data s q
    · exact nofun

theorem hostEvent_ne_refused (e : HostEvent) (s : State) (q : Refusal) : hostEvent e s ≠ .refused q := by
  cases e with
  | read width addr => exact hostRead_ne_refused width addr s q
  | write width addr data => exact hostWrite_ne_refused width addr data s q
  | poll => exact nofun
  | reset => exact nofun

/-- In an illegal configuration no step runs (R7). -/
theorem step_of_not_wf {s : State} (hc : ¬s.cfg.Wf) : step s = .refused .badConfig := if_neg hc

/-- In a legal configuration a step serves a host event or is a clock cycle; neither is refused. -/
theorem step_ne_refused {s : State} (hc : s.cfg.Wf) (q : Refusal) : step s ≠ .refused q := by
  unfold step machineStep
  rw [if_pos hc]
  split
  · exact nofun
  · exact hostEvent_ne_refused _ _ q

/-! ### The obligations -/

/-- Settles O8: the parts of the invariant hold at reset in every configuration, and the reference configuration is legal. -/
theorem resetMeetsInvariant : Obligations.ResetMeetsInvariant :=
  ⟨fun _ => State.resetWith_inv, State.resetWith_inv Config.reference_wf⟩

/-- Settles O55: an illegal configuration is refused before any event is served, and in a legal one no event is refused. -/
theorem badConfigurationIsRefused : Obligations.BadConfigurationIsRefused := by
  intro s
  refine ⟨step_of_not_wf, fun q hq => ?_⟩
  have hc : ¬s.cfg.Wf := fun hc => step_ne_refused hc q hq
  rw [step_of_not_wf hc] at hq
  injection hq with hq
  exact ⟨hq.symm, hc⟩

end Sys2Proof.Machine
end

section
/-!
PROOFS. Every step keeps the invariant of the machine (R21, R23, R24, R28, R171, R182, R209): one rule per update of the state, then one case per kind of step.
-/

namespace Sys2Proof.Machine

/-! ### Registers and STRBUF -/

/-- A host write of one word keeps K words in range (R52). -/
theorem State.RegsWf.writeWord {s : State} (h : s.RegsWf) (r : RegIdx) (j v : Nat) : (s.writeWord r j v).RegsWf := by
  intro q
  by_cases hq : q = r
  · subst hq
    rw [State.writeWord_regs_self]
    refine ⟨List.length_set.trans (h q).1, fun c hc => ?_⟩
    rcases List.mem_or_eq_of_mem_set hc with hc | rfl
    · exact (h q).2 c hc
    · exact Nat.mod_lt _ (Nat.two_pow_pos _)
  · rw [State.writeWord_regs_other _ _ hq]
    exact h q

/-- Bytes written below STRBUF_BYTES keep STRBUF canonical and in bounds (R28). -/
theorem State.StrbufWf.writeBytes {s : State} (h : s.StrbufWf) {j : Nat} {vs : List Byte}
    (hj : j + vs.length ≤ s.cfg.strbufBytes) : (s.writeBytes j vs).StrbufWf := by
  refine ⟨Memory.wf_writeAll h.1 j vs, fun c hc => ?_⟩
  rcases Memory.mem_writeAll hc with hc | ⟨-, hc⟩
  · exact h.2 c hc
  · exact Nat.lt_of_lt_of_le hc hj

/-- The text of a successful command fits into STRBUF (R28). -/
theorem completionOf_text_le {i : Instr} {s : State} {e : Effect} (h : completionOf i s = .success e) :
    e.text.length ≤ s.cfg.strbufBytes := by
  rcases completionOf_text h with ht | ⟨-, ht⟩
  · simp [ht]
  · exact ht

/-! ### The command in flight -/

/-- What is in flight after a STATUS read was in flight before it, with one BUSY = 1 read more (R211). -/
theorem State.mem_advance_inflight {s : State} {f : InFlight} (h : f ∈ s.advance.inflight) :
    ∃ g ∈ s.inflight, f = { g with busyReads := g.busyReads - 1 } := by
  cases hg : s.inflight with
  | none => simp [State.advance, hg] at h
  | some g =>
    by_cases h0 : g.busyReads = 0
    · simp [State.advance, hg, h0] at h
    · simp only [State.advance, hg, h0, if_false, Option.mem_some_iff] at h
      exact ⟨g, rfl, h.symm⟩

/-- What is in flight after a clock cycle had a cycle more, and at least two, before it (R209). -/
theorem State.mem_cycle_inflight {s : State} {f : InFlight} (h : f ∈ s.cycle.inflight) :
    ∃ g ∈ s.inflight, 1 < g.cycles ∧ f = { g with cycles := g.cycles - 1 } := by
  cases hg : s.inflight with
  | none => simp [State.cycle, hg] at h
  | some g =>
    by_cases h1 : g.cycles ≤ 1
    · simp [State.cycle, hg, h1] at h
    · simp only [State.cycle, hg, h1, if_false, Option.mem_some_iff] at h
      exact ⟨g, rfl, Nat.lt_of_not_le h1, h.symm⟩

/-- The latency of a command just started lies in [1, LAT_MAX] (R209). -/
theorem Config.Wf.latency_bounds {c : Config} (hc : c.Wf) (n : Nat) : 1 ≤ 1 + n % c.latMax ∧ 1 + n % c.latMax ≤ c.latMax := by
  obtain ⟨-, -, -, hl⟩ := hc
  have := Nat.mod_lt n hl
  omega

/-- A command started under the invariant is well formed: its latency is in range and it shows the STATUS of the state before it (R29, R209). -/
theorem State.launch_inFlightWf {s t : State} (hc : s.cfg.Wf) (hs : s.StatusWf) (ht : t.cfg = s.cfg) (w : HostWord)
    (p : Option Snapshot) : (t.launch s w p).InFlightWf := by
  intro f hf
  rw [State.launch_inflight, Option.mem_some_iff] at hf
  subst hf
  rw [State.launch_cfg, ht]
  obtain ⟨h1, h2⟩ := Config.Wf.latency_bounds hc (Config.draw s.draws .latency)
  exact ⟨h1, h2, fun he => (hs.1 he).1⟩

/-! ### STATUS and the error log -/

/-- An error completion leaves UF = 0 and its own entry newest in the log (R171, R182). -/
theorem State.StatusWf.raiseError {s : State} (h : s.StatusWf) (w : HostWord) {c : ErrCode} (hc : c ≠ .noError) :
    (s.raiseError w c).StatusWf := by
  refine ⟨fun _ => ⟨rfl, rfl⟩, fun x hx => ?_⟩
  rcases List.mem_cons.1 hx with rfl | hx
  · exact hc
  · exact h.2 x hx

/-- A success leaves ERR = 0 and the log as it was (R32). -/
theorem State.StatusWf.succeed {s : State} (h : s.StatusWf) (al : Bool) (e : Effect) : (s.succeed al e).StatusWf := by
  refine ⟨fun he => absurd (State.succeed_err s al e) he, ?_⟩
  rw [State.succeed_errLog]
  exact h.2

/-! ### The invariant, update by update -/

theorem State.Inv.advance {s : State} (h : s.Inv) : s.advance.Inv := by
  obtain ⟨hc, hr, hm, hs, hf⟩ := h
  refine ⟨hc, hr, hm, hs, fun f hin => ?_⟩
  obtain ⟨g, hg, rfl⟩ := State.mem_advance_inflight hin
  exact hf g hg

theorem State.Inv.cycle {s : State} (h : s.Inv) : s.cycle.Inv := by
  obtain ⟨hc, hr, hm, hs, hf⟩ := h
  refine ⟨hc, hr, hm, hs, fun f hin => ?_⟩
  obtain ⟨g, hg, h1, rfl⟩ := State.mem_cycle_inflight hin
  obtain ⟨-, hle, hshown⟩ := hf g hg
  exact ⟨Nat.le_sub_one_of_lt h1, (Nat.sub_le _ _).trans hle, hshown⟩

theorem State.Inv.writeSlot {s : State} (h : s.Inv) (slot : Slot) (data : HostWord) : (s.writeSlot slot data).Inv := by
  obtain ⟨hc, hr, hm, hs, hf⟩ := h
  rcases State.writeSlot_cases s slot data with e | ⟨-, e⟩ | ⟨-, e⟩ | ⟨r, j, -, -, e⟩ | ⟨j, -, hj, e⟩ <;> rw [e]
  · exact ⟨hc, hr, hm, hs, hf⟩
  · exact ⟨hc, hr, hm, hs, hf⟩
  · exact ⟨hc, hr, hm, hs, hf⟩
  · exact ⟨hc, hr.writeWord r j data.toNat, hm, hs, hf⟩
  · exact ⟨hc, hr, hm.writeBytes hj, hs, hf⟩

/-- An error completion and its start keep the invariant (R171). -/
theorem State.Inv.raiseError_launch {s : State} (h : s.Inv) (w : HostWord) {c : ErrCode} (hne : c ≠ .noError)
    (p : Option Snapshot) : ((s.raiseError w c).launch s w p).Inv := by
  obtain ⟨hc, hr, hm, hs, -⟩ := h
  exact ⟨hc, hr, hm, hs.raiseError w hne, State.launch_inFlightWf hc hs rfl w p⟩

/-- A success that stores no more text than STRBUF holds, and its start, keep the invariant (R12). -/
theorem State.Inv.succeed_launch {s : State} (h : s.Inv) (al : Bool) {e : Effect} (he : e.text.length ≤ s.cfg.strbufBytes)
    (w : HostWord) (p : Option Snapshot) : ((s.succeed al e).launch s w p).Inv := by
  obtain ⟨hc, hr, hm, hs, -⟩ := h
  have hcfg : (s.succeed al e).cfg = s.cfg := State.succeed_cfg s al e
  refine ⟨?_, hr.writeRegs _, ?_, hs.succeed al e, State.launch_inFlightWf hc hs hcfg w p⟩
  · rw [State.launch_cfg, hcfg]
    exact hc
  · have htext : (s.writeBytes 0 e.text).StrbufWf := hm.writeBytes (by omega)
    rw [State.StrbufWf, State.launch_strbuf, State.launch_cfg, State.succeed_strbuf, hcfg]
    exact htext

theorem State.Inv.conclude {s : State} (h : s.Inv) (i : Instr) : (s.conclude i (completionOf i s)).Inv := by
  rcases State.conclude_cases s i (completionOf i s) with ⟨e, he, ht⟩ | ⟨code, he, ht⟩ <;> rw [ht]
  · exact h.succeed_launch _ (completionOf_text_le he) _ _
  · exact h.raiseError_launch _ (completionOf_error he) _

theorem State.Inv.hardReset {s : State} (h : s.Inv) : s.hardReset.Inv := State.resetWith_inv h.1

/-- Settles O9: one case per kind of step. The host's events and replies and the count of draws are outside the invariant. -/
theorem stepKeepsInvariant : Obligations.StepKeepsInvariant := by
  intro s t h hst
  have hp : s.pop.Inv := h
  obtain ⟨-, hcase⟩ := step_cases hst
  cases hcase with
  | cycle hb ht => exact ht ▸ h.cycle
  | reset hb ht => exact ht ▸ hp.hardReset
  | poll hb ht => exact ht ▸ hp.advance
  | outside addr hw hb ht => exact ht ▸ hp
  | status addr hb ht => exact ht ▸ hp.advance
  | read addr off hb ho hs ht => exact ht ▸ hp
  | write addr off data hb ho hs hi ht => exact ht ▸ hp.writeSlot _ data
  | illegal w hd hi hn hb ht => exact ht ▸ hp.raiseError_launch w (by decide) none
  | command i hn hi hb ht => exact ht ▸ hp.conclude i

end Sys2Proof.Machine
end

section
/-!
PROOFS. What every command leaves in STATUS and in flight (R30, R31, R38, R209).
-/

namespace Sys2Proof.Machine

/-! ### Success of the commands that can fail -/

theorem divisionCompletion_success {b : Nat} {ws : List (RegIdx × Nat)} {e : Effect}
    (h : divisionCompletion b ws = .success e) : e = { regs := ws } := by
  unfold divisionCompletion at h
  split at h
  · cases h
  · injection h with h
    exact h.symm

theorem tostrCompletion_success {c : Config} {a cap : Nat} {e : Effect} (h : tostrCompletion c a cap = .success e) :
    ∃ v text, e = { res := some v, text := text } := by
  unfold tostrCompletion at h
  split at h
  · cases h
  · split at h
    · cases h
    · injection h with h
      exact ⟨_, _, h.symm⟩

theorem fromstrCompletion_success {c : Config} {d : RegIdx} {len : Nat} {bytes : List Byte} {e : Effect}
    (h : fromstrCompletion c d len bytes = .success e) : ∃ v, e = { regs := [(d, v)] } := by
  unfold fromstrCompletion at h
  split at h
  · cases h
  · split at h
    · cases h
    · split at h
      · cases h
      · injection h with h
        exact ⟨_, h.symm⟩

/-! ### UF and RES of a success -/

/-- UF of a success is 1 exactly for SUB with x[A] < x[B] and DEC of 0 (R31). -/
theorem completionOf_uf {i : Instr} {s : State} {e : Effect} (h : completionOf i s = .success e) :
    e.uf = true ↔ (∃ d a b, i = .sub d a b ∧ s.x a < s.x b) ∨ ∃ d, i = .dec d ∧ s.x d = 0 := by
  cases i
  case sub d a b =>
    injection h with h
    subst h
    simp [ufOfSub_eq]
  case dec d =>
    injection h with h
    subst h
    simp [ufOfDec_eq]
  case div | mod | divmod =>
    obtain rfl := divisionCompletion_success h
    simp
  case tostr =>
    obtain ⟨v, text, rfl⟩ := tostrCompletion_success h
    simp
  case fromstr =>
    obtain ⟨v, rfl⟩ := fromstrCompletion_success h
    simp
  all_goals
    injection h with h
    subst h
    simp

/-- The commands that write RES: CMP, ISZERO, TOINT and TOSTR (R27). -/
theorem completionOf_res {i : Instr} {s : State} {e : Effect} (h : completionOf i s = .success e) :
    e.res = none ∨ (∃ a b, i = .cmp a b) ∨ ∃ a, i = .iszero a ∨ i = .toint a ∨ i = .tostr a := by
  cases i
  case cmp a b => exact .inr (.inl ⟨a, b, rfl⟩)
  case iszero a => exact .inr (.inr ⟨a, .inl rfl⟩)
  case toint a => exact .inr (.inr ⟨a, .inr (.inl rfl)⟩)
  case tostr a => exact .inr (.inr ⟨a, .inr (.inr rfl)⟩)
  case div | mod | divmod =>
    obtain rfl := divisionCompletion_success h
    exact .inl rfl
  case fromstr =>
    obtain ⟨v, rfl⟩ := fromstrCompletion_success h
    exact .inl rfl
  all_goals
    injection h with h
    subst h
    exact .inl rfl

/-! ### The command in flight -/

/-- Every command is in flight when its step ends, with its own word and snapshot and the STATUS of the state before (R30, R38). -/
theorem State.conclude_inflight (s : State) (i : Instr) (c : Completion) :
    (s.conclude i c).inflight = some
      { word := encode i, snapshot := some (s.snapshot i), shownUf := s.uf, shownErr := s.err
        busyReads := Config.draw s.draws .busyReads
        cycles := 1 + Config.draw s.draws .latency % s.cfg.latMax } := rfl

/-! ### The obligations -/

/-- Settles O41: a success by its effect's UF; SUB and DEC never fail, and an error leaves UF = 0. -/
theorem ufOnlyFromSubAndDec : Obligations.UfOnlyFromSubAndDec := by
  intro i s t h
  rcases exec_cases h with ⟨e, he, rfl⟩ | ⟨c, hc, rfl⟩
  · exact ⟨completionOf_uf he, fun hne => absurd rfl hne⟩
  · refine ⟨⟨nofun, ?_⟩, fun _ => rfl⟩
    rintro (⟨d, a, b, rfl, -⟩ | ⟨d, rfl, -⟩) <;> cases hc

/-- Settles O58: the command in flight is the one `launch` made, and its latency is in range by LAT_MAX ≥ 1. -/
theorem commandsStartBusy : Obligations.CommandsStartBusy := by
  intro i s hc
  obtain ⟨h1, h2⟩ := Config.Wf.latency_bounds hc (Config.draw s.draws .latency)
  exact ⟨_, _, exec_eq i s, rfl, State.conclude_inflight s i _, rfl, rfl, h1, h2, rfl, rfl⟩

end Sys2Proof.Machine
end

section
/-!
PROOFS. What a step does at a slot of the host window (R33 to R35, R58, R59, R77, R204): reads and writes of a slot once, then CMD, the control slots and the configuration.
-/

namespace Sys2Proof.Machine

/-! ### Reads -/

/-- What a slot reads as does not depend on the host's events. -/
@[simp] theorem State.slotValue_bus (s : State) (rest : List HostEvent) (slot : Slot) :
    ({ s with bus := rest } : State).slotValue slot = s.slotValue slot := by
  cases slot <;> rfl

/-- While BUSY = 0 a STATUS read finds nothing to use up (R211). -/
theorem State.advance_of_idle {s : State} (h : s.inflight = none) : s.advance = s := by
  simp only [State.advance, h]
  rw [← h]

/-- With no BUSY = 1 read left the command completes at the STATUS read (R211). -/
theorem State.advance_last {s : State} {f : InFlight} (hf : s.inflight = some f) (h0 : f.busyReads = 0) :
    s.advance = { s with inflight := none } := by
  simp [State.advance, hf, h0]

/-- One of the BUSY = 1 reads left is used up (R211). -/
theorem State.advance_more {s : State} {f : InFlight} {k : Nat} (hf : s.inflight = some f) (hk : f.busyReads = k + 1) :
    s.advance = { s with inflight := some { f with busyReads := k } } := by
  simp [State.advance, hf, hk]

theorem State.busy_eq_false_iff {s : State} : s.busy = false ↔ s.inflight = none := by
  simp [State.busy]

theorem readSlot_status (s : State) : readSlot .status s = .next s.readStatus := by
  simp [readSlot, Slot.readableWhileBusy]

/-- CONFIG and SBUFSZ may be read at any time (R204). -/
theorem readSlot_of_readable {s : State} {slot : Slot} (hr : slot.readableWhileBusy = true) (hs : slot ≠ .status) :
    readSlot slot s = .next (s.reply (s.slotValue slot)) := by
  simp [readSlot, hr, hs]

/-- While BUSY = 0 every slot may be read, and the reply is what it reads as (R58). -/
theorem readSlot_of_idle {s : State} (hi : s.busy = false) (slot : Slot) :
    readSlot slot s = .next (s.reply (s.slotValue slot)) := by
  by_cases hs : slot = .status
  · subst hs
    rw [readSlot_status, State.readStatus, State.advance_of_idle (State.busy_eq_false_iff.1 hi)]
    rfl
  · simp [readSlot, hi, hs]

/-- A step that serves a STATUS read (R204). -/
theorem step_readStatus {s : State} {rest : List HostEvent} (hc : s.cfg.Wf)
    (hb : s.bus = .read 32 (s.cfg.base + 0x4) :: rest) : step s = .next ({ s with bus := rest } : State).readStatus :=
  (step_read hc (by decide) rfl hb).trans (readSlot_status _)

/-! ### Writes -/

theorem writeSlot_of_idle {s : State} {slot : Slot} (hi : s.busy = false) (hs : slot ≠ .cmd) (v : HostWord) :
    writeSlot slot v s = .next (s.writeSlot slot v) := by
  simp [writeSlot, hi, hs]

theorem writeSlot_cmd_of_idle {s : State} (hi : s.busy = false) (w : HostWord) : writeSlot .cmd w s = cmdWrite w s := by
  simp [writeSlot, hi]

/-- A step that serves a defined read while BUSY = 0 replies what the slot reads as (R58). -/
theorem step_read_of_idle {s : State} {rest : List HostEvent} {off : Nat} (hc : s.cfg.Wf) (hi : s.busy = false)
    (ho : off < 2 ^ 20) (h4 : off % 4 = 0) (hb : s.bus = .read 32 (s.cfg.base + off) :: rest) :
    step s = .next (({ s with bus := rest } : State).reply (s.slotValue (slotAt off))) := by
  rw [step_read hc ho h4 hb, readSlot_of_idle (s := { s with bus := rest }) hi, State.slotValue_bus]

/-- A step that serves a defined write while BUSY = 0 to a slot other than CMD does what the slot says (R58). -/
theorem step_write_of_idle {s : State} {rest : List HostEvent} {off : Nat} {v : HostWord} (hc : s.cfg.Wf) (hi : s.busy = false)
    (ho : off < 2 ^ 20) (h4 : off % 4 = 0) (hs : slotAt off ≠ .cmd) (hb : s.bus = .write 32 (s.cfg.base + off) v :: rest) :
    step s = .next (({ s with bus := rest } : State).writeSlot (slotAt off) v) :=
  (step_write hc ho h4 hb).trans (writeSlot_of_idle (s := { s with bus := rest }) hi hs v)

/-- A legal word is its command's execution (R77). -/
theorem cmdWrite_of_legal {w : HostWord} {i : Instr} (hd : decode w = some i) (s : State) : cmdWrite w s = exec i s := by
  simp [cmdWrite, hd]

/-- A step at a CMD write while BUSY = 0 runs the word on the state without that event (R33, R59). -/
theorem step_cmdEvent {s : State} {rest : List HostEvent} {w : HostWord} (hc : s.cfg.Wf) (hi : s.busy = false)
    (hb : s.bus = cmdEvent s.cfg w :: rest) : step s = cmdWrite w { s with bus := rest } :=
  (step_write (off := 0) hc (by decide) rfl hb).trans (writeSlot_cmd_of_idle (s := { s with bus := rest }) hi w)

/-- A step at a CMD write of a legal word while BUSY = 0 executes the command (R77). -/
theorem step_command {s : State} {rest : List HostEvent} {w : HostWord} {i : Instr} (hc : s.cfg.Wf) (hi : s.busy = false)
    (hb : s.bus = cmdEvent s.cfg w :: rest) (hd : decode w = some i) : step s = exec i { s with bus := rest } :=
  (step_cmdEvent hc hi hb).trans (cmdWrite_of_legal hd _)

/-- A table word that decodes is the command word the host writes (R76). -/
theorem decode_of_decodeTableWord {n w : Nat} {i : Instr} (h : decodeTableWord n w = some i) :
    decode (BitVec.ofNat 32 (w % 2 ^ n)) = some i := by
  unfold decodeTableWord at h
  split at h
  · exact h
  · cases h

/-! ### Fields of the control slots -/

theorem ErrCode.number_le (c : ErrCode) : c.number ≤ 6 := by cases c <;> decide

theorem statusBits_toNat (busy uf : Bool) (err : ErrCode) :
    (statusBits busy uf err).toNat = busy.toNat + 2 * uf.toNat + 256 * err.number := by
  have hb := busy.toNat_lt
  have hu := uf.toNat_lt
  have he := err.number_le
  rw [statusBits, BitVec.toNat_ofNat]
  omega

/-- The fields of STATUS (R29). -/
theorem bitsOf_statusBits (busy uf : Bool) (err : ErrCode) :
    bitsOf (statusBits busy uf err) 0 0 = busy.toNat ∧ bitsOf (statusBits busy uf err) 1 1 = uf.toNat ∧
    bitsOf (statusBits busy uf err) 7 2 = 0 ∧ bitsOf (statusBits busy uf err) 11 8 = err.number ∧
    bitsOf (statusBits busy uf err) 31 12 = 0 := by
  have hb := busy.toNat_lt
  have hu := uf.toNat_lt
  have he := err.number_le
  simp only [bitsOf, statusBits_toNat]
  norm_num
  omega

/-- A scalar register is its low half and its high half (R26, R27). -/
theorem scalar_eq_halves (x : Scalar) :
    x.toNat = (BitVec.ofNat 32 x.toNat).toNat + 2 ^ 32 * (BitVec.ofNat 32 (x.toNat / 2 ^ 32)).toNat := by
  have hx := x.isLt
  simp only [BitVec.toNat_ofNat]
  omega

/-- ARG_LO reads back what was written to it, and ARG_HI is as before (R26). -/
theorem State.writeArgLo_halves (s : State) (v : HostWord) :
    (s.writeArgLo v).slotValue .argLo = v ∧ (s.writeArgLo v).slotValue .argHi = s.slotValue .argHi := by
  have ha := s.arg.isLt
  have hv := v.isLt
  constructor <;> apply BitVec.eq_of_toNat_eq <;>
    simp only [State.slotValue, State.writeArgLo_arg, BitVec.toNat_ofNat] <;> omega

/-- ARG_HI reads back what was written to it, and ARG_LO is as before (R26). -/
theorem State.writeArgHi_halves (s : State) (v : HostWord) :
    (s.writeArgHi v).slotValue .argHi = v ∧ (s.writeArgHi v).slotValue .argLo = s.slotValue .argLo := by
  have ha := s.arg.isLt
  have hv := v.isLt
  constructor <;> apply BitVec.eq_of_toNat_eq <;>
    simp only [State.slotValue, State.writeArgHi_arg, BitVec.toNat_ofNat] <;> omega

/-- The fields of CONFIG (R34): the parameters of a legal configuration fit into them. -/
theorem bitsOf_configWord {s : State} (hc : s.cfg.Wf) :
    bitsOf s.configWord 7 0 = s.cfg.wordBits ∧ bitsOf s.configWord 23 8 = s.cfg.wordCount ∧ bitsOf s.configWord 31 24 = 16 := by
  obtain ⟨hw, ⟨-, -, hk⟩, -, -⟩ := hc
  have hw : s.cfg.wordBits ≤ 32 := by omega
  simp only [bitsOf, State.configWord, numRegs, BitVec.toNat_ofNat]
  norm_num
  omega

/-- The fields of SBUFSZ (R34). -/
theorem bitsOf_sbufszWord {s : State} (hc : s.cfg.Wf) :
    bitsOf s.sbufszWord 15 0 = s.cfg.strbufBytes ∧ bitsOf s.sbufszWord 31 16 = 0 := by
  obtain ⟨-, -, ⟨-, hb⟩, -⟩ := hc
  simp only [bitsOf, State.sbufszWord, BitVec.toNat_ofNat]
  norm_num
  omega

/-! ### The configuration is constant -/

@[simp] theorem State.writeSlot_cfg (s : State) (slot : Slot) (data : HostWord) : (s.writeSlot slot data).cfg = s.cfg := by
  rcases State.writeSlot_cases s slot data with e | ⟨-, e⟩ | ⟨-, e⟩ | ⟨r, j, -, -, e⟩ | ⟨j, -, -, e⟩ <;> rw [e] <;> rfl

@[simp] theorem State.conclude_cfg (s : State) (i : Instr) (c : Completion) : (s.conclude i c).cfg = s.cfg := by
  cases c with
  | success e => exact State.succeed_cfg s (aliased i) e
  | error code => rfl

/-- No step changes the configuration (R34). -/
theorem step_cfg {s t : State} (h : step s = .next t) : t.cfg = s.cfg := by
  obtain ⟨-, hcase⟩ := step_cases h
  cases hcase with
  | cycle hb ht => exact ht ▸ rfl
  | reset hb ht => exact ht ▸ rfl
  | poll hb ht => exact ht ▸ rfl
  | outside addr hw hb ht => exact ht ▸ rfl
  | status addr hb ht => exact ht ▸ rfl
  | read addr off hb ho hs ht => exact ht ▸ rfl
  | write addr off data hb ho hs hi ht => exact ht ▸ State.writeSlot_cfg s.pop _ data
  | illegal w hd hi hn hb ht => exact ht ▸ rfl
  | command i hn hi hb ht => exact ht ▸ State.conclude_cfg s.pop i _

/-! ### The obligations -/

/-- Settles O6: a CMD write at offset 0 of the window; `withFetchWord` places one and clears the command in flight. -/
theorem stepRunsDecodedCommand : Obligations.StepRunsDecodedCommand :=
  ⟨fun _ _ _ _ hc hi hb hd => step_command hc hi hb hd, fun _ _ _ hc hi hb _ => step_cmdEvent hc hi hb,
    fun s w _ hc hd => step_command (s := s.withFetchWord 32 w) hc rfl rfl (decode_of_decodeTableWord hd)⟩

/-- Settles O11: the two slots by their offsets, their fields by the bounds of a legal configuration, and the configuration by the kinds of step. -/
theorem configurationIsConstant : Obligations.ConfigurationIsConstant := by
  refine ⟨rfl, rfl, fun s hc => ?_, fun s rest hc => ⟨fun hb => ?_, fun hb => ?_⟩, fun s rest v hc hi hb => ?_,
    fun s t => step_cfg⟩
  · obtain ⟨hw, hk, hn⟩ := bitsOf_configWord hc
    exact ⟨hw, hk, hn, bitsOf_sbufszWord hc⟩
  · exact (step_read hc (by decide) rfl hb).trans (readSlot_of_readable (slot := .config) rfl nofun)
  · exact (step_read hc (by decide) rfl hb).trans (readSlot_of_readable (slot := .sbufsz) rfl nofun)
  · rcases hb with hb | hb
    · exact step_write_of_idle hc hi (by decide) rfl (by decide) hb
    · exact step_write_of_idle hc hi (by decide) rfl (by decide) hb

/-- Settles O52: reads and writes by slot, STATUS reads by the BUSY = 1 reads left, and the fields by their place in the word. -/
theorem controlSlots : Obligations.ControlSlots := by
  refine ⟨by decide, ?_, ?_, ?_, bitsOf_statusBits, ?_⟩
  · intro s rest off hc hi ho h4 hb
    exact step_read_of_idle hc hi (by omega) h4 hb
  · intro s rest f hc hf hb
    have hf' : ({ s with bus := rest } : State).inflight = some f := hf
    rw [step_readStatus hc hb]
    constructor
    · intro h0
      rw [State.readStatus, State.advance_last hf' h0]
      rfl
    · intro k hk
      rw [State.readStatus, State.advance_more hf' hk]
      rfl
  · intro s rest off v hc hi hlo ho h4 hb
    have hs : slotAt off ≠ .cmd := fun hs => by
      have := slotAt_cmd h4 hs
      omega
    exact step_write_of_idle hc hi (by omega) h4 hs hb
  · intro s v
    obtain ⟨hlo, hloHi⟩ := State.writeArgLo_halves s v
    obtain ⟨hhi, hhiLo⟩ := State.writeArgHi_halves s v
    refine ⟨rfl, fun hi => ?_, scalar_eq_halves s.arg, scalar_eq_halves s.res, rfl, rfl, rfl, hlo, hloHi, hhi, hhiLo, rfl, rfl⟩
    simp only [State.slotValue, State.statusWord, State.busy_eq_false_iff.1 hi]

end Sys2Proof.Machine
end

section
/-!
PROOFS. What changes RES, ARG, a register and a byte of STRBUF (R21, R24, R26 to R28), and where the strict step of R25 stops.
-/

namespace Sys2Proof.Machine

/-! ### What a command changes -/

@[simp] theorem State.conclude_arg (s : State) (i : Instr) (c : Completion) : (s.conclude i c).arg = s.arg := by
  cases c with
  | success e => exact State.succeed_arg s (aliased i) e
  | error code => rfl

/-- A command changes RES only where its success writes RES (R27, R171). -/
theorem State.conclude_res_ne {s : State} {i : Instr} {c : Completion} (h : (s.conclude i c).res ≠ s.res) :
    ∃ e, c = .success e ∧ e.res ≠ none := by
  cases c with
  | error code => exact absurd rfl h
  | success e =>
    refine ⟨e, rfl, fun hn => h ?_⟩
    rw [State.conclude_success, State.launch_res, State.succeed_res, hn]
    rfl

/-- A command changes no register but its destinations (R24). -/
theorem State.conclude_regs_other {s : State} {i : Instr} {r : RegIdx} (hr : r ∉ destinations i) :
    (s.conclude i (completionOf i s)).regs[r] = s.regs[r] := by
  rcases State.conclude_cases s i (completionOf i s) with ⟨e, he, ht⟩ | ⟨code, -, ht⟩ <;> rw [ht]
  · rw [State.launch_regs, State.succeed_regs, State.writeRegs_regs_other]
    rw [State.settled_fst, completionOf_regs he]
    exact hr
  · rfl

/-- A command other than TOSTR leaves STRBUF (R28). -/
theorem State.conclude_strbuf {s : State} {i : Instr} (hi : ∀ a, i ≠ .tostr a) :
    (s.conclude i (completionOf i s)).strbuf = s.strbuf := by
  rcases State.conclude_cases s i (completionOf i s) with ⟨e, he, ht⟩ | ⟨code, -, ht⟩ <;> rw [ht]
  · rcases completionOf_text he with htext | ⟨⟨a, ha⟩, -⟩
    · rw [State.launch_strbuf, State.succeed_strbuf, htext]
      rfl
    · exact absurd ha (hi a)
  · rfl

/-! ### What a host write changes -/

@[simp] theorem State.writeSlot_res (s : State) (slot : Slot) (data : HostWord) : (s.writeSlot slot data).res = s.res := by
  rcases State.writeSlot_cases s slot data with e | ⟨-, e⟩ | ⟨-, e⟩ | ⟨r, j, -, -, e⟩ | ⟨j, -, -, e⟩ <;> rw [e] <;> rfl

/-- A host write changes ARG only at ARG_LO or ARG_HI (R26). -/
theorem State.writeSlot_arg_ne {s : State} {slot : Slot} {data : HostWord} (h : (s.writeSlot slot data).arg ≠ s.arg) :
    slot = .argLo ∨ slot = .argHi := by
  rcases State.writeSlot_cases s slot data with e | ⟨hs, -⟩ | ⟨hs, -⟩ | ⟨r, j, -, -, e⟩ | ⟨j, -, -, e⟩
  · exact absurd (congrArg State.arg e) h
  · exact .inl hs
  · exact .inr hs
  · exact absurd (congrArg State.arg e) h
  · exact absurd (congrArg State.arg e) h

/-- A host write changes a register only at one of its K slots (R52). -/
theorem State.writeSlot_regs_ne {s : State} {slot : Slot} {data : HostWord} {r : RegIdx}
    (h : (s.writeSlot slot data).regs[r] ≠ s.regs[r]) : ∃ j < s.cfg.wordCount, slot = .bigWord r j := by
  rcases State.writeSlot_cases s slot data with e | ⟨-, e⟩ | ⟨-, e⟩ | ⟨q, j, hs, hj, e⟩ | ⟨j, -, -, e⟩ <;> rw [e] at h
  · exact absurd rfl h
  · exact absurd rfl h
  · exact absurd rfl h
  · by_cases hq : r = q
    · exact ⟨j, hj, hq ▸ hs⟩
    · exact absurd (State.writeWord_regs_other _ _ hq) h
  · exact absurd rfl h

/-- A host write changes a byte of STRBUF only at its slot (R53). -/
theorem State.writeSlot_byte_ne {s : State} {slot : Slot} {data : HostWord} {j : Nat}
    (h : Memory.read? (s.writeSlot slot data).strbuf j ≠ Memory.read? s.strbuf j) :
    j < s.cfg.strbufBytes ∧ slot = .strByte j := by
  rcases State.writeSlot_cases s slot data with e | ⟨-, e⟩ | ⟨-, e⟩ | ⟨q, k, -, -, e⟩ | ⟨k, hs, hk, e⟩ <;> rw [e] at h
  · exact absurd rfl h
  · exact absurd rfl h
  · exact absurd rfl h
  · exact absurd rfl h
  · by_cases hj : j = k
    · exact hj ▸ ⟨hk, hs⟩
    · exact absurd (Memory.read_write_other _ hj) h

/-! ### What a step changes -/

/-- But for the reset input, a step changes RES, ARG, registers or STRBUF only as a host write to a slot other than CMD or as a legal command. -/
theorem step_changes {s t : State} (h : step s = .next t) (hr : s.bus.head? ≠ some .reset) :
    (t.res = s.res ∧ t.arg = s.arg ∧ t.regs = s.regs ∧ t.strbuf = s.strbuf) ∨
    (∃ off data rest, s.bus = .write 32 (s.cfg.base + off) data :: rest ∧ off < 2 ^ 20 ∧ off % 4 = 0 ∧
      t = s.pop.writeSlot (slotAt off) data) ∨
    ∃ i, s.nextCommand = some i ∧ t = s.pop.conclude i (completionOf i s.pop) := by
  obtain ⟨-, hcase⟩ := step_cases h
  cases hcase with
  | cycle hb ht => exact .inl (ht ▸ ⟨rfl, rfl, rfl, rfl⟩)
  | reset hb ht => exact absurd hb hr
  | poll hb ht => exact .inl (ht ▸ ⟨rfl, rfl, rfl, rfl⟩)
  | outside addr hw hb ht => exact .inl (ht ▸ ⟨rfl, rfl, rfl, rfl⟩)
  | status addr hb ht => exact .inl (ht ▸ ⟨rfl, rfl, rfl, rfl⟩)
  | read addr off hb ho hs ht => exact .inl (ht ▸ ⟨rfl, rfl, rfl, rfl⟩)
  | write addr off data hb ho hs hi ht =>
    obtain ⟨rfl, hoff, h4⟩ := ho
    obtain ⟨rest, hb⟩ := List.head?_eq_some_iff.1 hb
    exact .inr (.inl ⟨off, data, rest, hb, hoff, h4, ht⟩)
  | illegal w hd hi hn hb ht => exact .inl (ht ▸ ⟨rfl, rfl, rfl, rfl⟩)
  | command i hn hi hb ht => exact .inr (.inr ⟨i, hn, ht⟩)

/-! ### The obligations on changes -/

/-- Settles O46: RES by the commands that write it, ARG by its two slots. -/
theorem scalarRegistersChangeOnlyBy : Obligations.ScalarRegistersChangeOnlyBy := by
  intro s t h hr
  rcases step_changes h hr with ⟨hres, harg, -, -⟩ | ⟨off, data, rest, hb, -, h4, rfl⟩ | ⟨i, hn, rfl⟩
  · exact ⟨fun hne => absurd hres hne, fun hne => absurd harg hne⟩
  · refine ⟨fun hne => absurd (State.writeSlot_res s.pop _ data) hne, fun hne => ⟨off, data, rest, hb, ?_⟩⟩
    rcases State.writeSlot_arg_ne (s := s.pop) hne with hs | hs
    · exact .inl (slotAt_argLo h4 hs)
    · exact .inr (slotAt_argHi h4 hs)
  · refine ⟨fun hne => ?_, fun hne => absurd (State.conclude_arg s.pop i _) hne⟩
    obtain ⟨e, he, hres⟩ := State.conclude_res_ne (s := s.pop) hne
    refine ⟨?_, i, hn, (completionOf_res he).resolve_left hres⟩
    rw [he]
    rfl

/-- Settles O47: a register by its K slots and the commands with it as a destination, a byte of STRBUF by its slot and TOSTR. -/
theorem storageChangesOnlyBy : Obligations.StorageChangesOnlyBy := by
  intro s t h hr
  rcases step_changes h hr with ⟨-, -, hregs, hbuf⟩ | ⟨off, data, rest, hb, hoff, h4, rfl⟩ | ⟨i, hn, rfl⟩
  · exact ⟨fun r hne => absurd (by rw [hregs]) hne, fun j hne => absurd (by rw [hbuf]) hne⟩
  · refine ⟨fun r hne => ?_, fun j hne => ?_⟩
    · obtain ⟨j, hj, hs⟩ := State.writeSlot_regs_ne (s := s.pop) hne
      obtain ⟨rfl, -⟩ := slotAt_bigWord hoff h4 hs
      exact .inr ⟨j, data, rest, hj, by simpa only [Nat.add_assoc] using hb⟩
    · obtain ⟨hj, hs⟩ := State.writeSlot_byte_ne (s := s.pop) hne
      obtain ⟨rfl, -⟩ := slotAt_strByte hoff h4 hs
      exact .inr ⟨data, rest, hj, by simpa only [Nat.add_assoc] using hb⟩
  · refine ⟨fun r hne => .inl ⟨i, hn, ?_⟩, fun j hne => .inl ?_⟩
    · by_contra hd
      exact hne (State.conclude_regs_other (s := s.pop) hd)
    · by_contra ha
      have hi : ∀ a, i ≠ .tostr a := fun a e => ha ⟨a, e ▸ hn⟩
      exact hne (congrArg (Memory.read? · j) (State.conclude_strbuf (s := s.pop) hi))

/-! ### The strict step -/

/-- The next command is the legal word of the CMD write that comes next, in a legal configuration and while BUSY = 0 (R77). -/
theorem State.nextCommand_some {s : State} {i : Instr} (h : s.nextCommand = some i) :
    s.cfg.Wf ∧ s.busy = false ∧ ∃ w rest, s.bus = cmdEvent s.cfg w :: rest ∧ decode w = some i := by
  unfold State.nextCommand at h
  split at h
  case h_1 width addr data rest hb =>
    split at h
    case h_1 off hoff =>
      split at h
      case isTrue hcond =>
        obtain ⟨hc, hi, ha, hs⟩ := hcond
        obtain ⟨rfl, h4⟩ := accessDefined_true.1 ha
        obtain rfl := slotAt_cmd h4 hs
        obtain ⟨rfl, -⟩ := windowOffset_some hoff
        exact ⟨hc, hi, data, rest, hb, h⟩
      case isFalse => cases h
    case h_2 => cases h
  all_goals cases h

/-- A step that is about to execute a command does so and answers a next state (R77). -/
theorem step_of_nextCommand {s : State} {i : Instr} (h : s.nextCommand = some i) : ∃ t, step s = .next t := by
  obtain ⟨hc, hi, w, rest, hb, hd⟩ := State.nextCommand_some h
  exact ⟨_, (step_command hc hi hb hd).trans (exec_eq i _)⟩

/-- The strict step at a command (R25). The snapshot does not depend on the host's events. -/
theorem strictStep_of_command {s : State} {i : Instr} (h : s.nextCommand = some i) :
    strictStep s = if s.snapshotUnwritten i then .fault .unwrittenOperand else step s := by
  simp only [strictStep, h]
  rfl

theorem strictStep_of_other {s : State} (h : s.nextCommand = none) : strictStep s = step s := by
  simp only [strictStep, h]

/-- At a command the strict step stops with R25's fault exactly where the snapshot holds something unwritten; the machine's step never does. -/
theorem strictStep_unwritten_iff {s : State} {i : Instr} (h : s.nextCommand = some i) :
    strictStep s = .fault .unwrittenOperand ↔ s.snapshotUnwritten i = true := by
  rw [strictStep_of_command h]
  by_cases hu : s.snapshotUnwritten i = true
  · simp [hu]
  · obtain ⟨t, ht⟩ := step_of_nextCommand h
    simp [hu, ht]

theorem State.regWritten_eq_false {s : State} {r : RegIdx} :
    s.regWritten r = false ↔ ∃ x ∈ s.regs[r], x.written = false := by
  simp [State.regWritten]

theorem State.byteWritten_eq_false {s : State} {j : Nat} : s.byteWritten j = false ↔ Memory.read? s.strbuf j = none := by
  simp [State.byteWritten]

/-- FROMSTR parses the bytes below the length when the length passes both checks, and none otherwise (R172). -/
theorem State.lt_parseLength {s : State} {j : Nat} : j < s.parseLength ↔
    s.arg.toNat ≤ s.cfg.strbufBytes ∧ s.arg.toNat ≤ s.cfg.totalBits / 4 ∧ j < s.arg.toNat := by
  rw [State.parseLength, State.argNat, Config.maxDigits]
  split
  case isTrue hlen => simp [hlen]
  case isFalse hlen =>
    exact ⟨fun hj => absurd hj (Nat.not_lt_zero j), fun ⟨hb, hd, _⟩ => absurd ⟨hb, hd⟩ hlen⟩

/-- The string bytes a command is about to read: those FROMSTR parses when both of its length checks pass (R172). -/
theorem State.lt_snapshotLength {s : State} {i : Instr} {j : Nat} :
    j < s.snapshotLength i ↔ (∃ d, i = .fromstr d) ∧ s.arg.toNat ≤ s.cfg.strbufBytes ∧ s.arg.toNat ≤ s.cfg.totalBits / 4 ∧
      j < s.arg.toNat := by
  cases i
  case fromstr d => exact State.lt_parseLength.trans (and_iff_right ⟨d, rfl⟩).symm
  all_goals simp [State.snapshotLength]

/-- A snapshot holds something unwritten: a word of a register it reads, or a byte FROMSTR is about to parse (R25). -/
theorem State.snapshotUnwritten_iff {s : State} {i : Instr} : s.snapshotUnwritten i = true ↔
    (∃ r ∈ snapshotRegs i, ∃ x ∈ s.regs[r], x.written = false) ∨
    (∃ d, i = .fromstr d) ∧ s.arg.toNat ≤ s.cfg.strbufBytes ∧ s.arg.toNat ≤ s.cfg.totalBits / 4 ∧
      ∃ j < s.arg.toNat, Memory.read? s.strbuf j = none := by
  simp only [State.snapshotUnwritten, Bool.or_eq_true, List.any_eq_true, Bool.not_eq_true', List.mem_range,
    State.regWritten_eq_false, State.byteWritten_eq_false, State.lt_snapshotLength]
  refine or_congr Iff.rfl ⟨?_, ?_⟩
  · rintro ⟨j, ⟨hi, hb, hd, hj⟩, hn⟩
    exact ⟨hi, hb, hd, j, hj, hn⟩
  · rintro ⟨hi, hb, hd, j, hj, hn⟩
    exact ⟨j, ⟨hi, hb, hd, hj⟩, hn⟩

/-- Settles O45: at a command by its snapshot, and elsewhere the strict step is the step by definition. -/
theorem strictStopsOnUnwrittenOperands : Obligations.StrictStopsOnUnwrittenOperands := by
  refine ⟨fun s i h => (strictStep_unwritten_iff h).trans State.snapshotUnwritten_iff, fun s => strictStep_of_other,
    fun s hne => ?_⟩
  cases h : s.nextCommand with
  | none => exact strictStep_of_other h
  | some i =>
    have hu : ¬s.snapshotUnwritten i = true := fun hu => hne ((strictStep_unwritten_iff h).2 hu)
    rw [strictStep_of_command h, if_neg hu]

end Sys2Proof.Machine
end

section
/-!
PROOFS. Time: the poll loop reads STATUS until the command completes (R81, R211), and left alone a command completes within LAT_MAX cycles (R209).
-/

namespace Sys2Proof.Machine

/-- A run of one step more is the run and then that step. -/
theorem runSteps_succ_of_next {n : Nat} {s t : State} (h : runSteps n s = .next t) : runSteps (n + 1) s = step t := by
  induction n generalizing s with
  | zero =>
    injection h with h
    subst h
    simp only [runSteps]
    cases step s <;> rfl
  | succ n ih =>
    cases hu : step s with
    | next u =>
      simp only [runSteps, hu] at h ⊢
      exact ih h
    | fault r => simp [runSteps, hu] at h
    | refused r => simp [runSteps, hu] at h

/-! ### The poll loop -/

/-- A step that serves a turn of the poll loop (R81). -/
theorem step_poll {s : State} {rest : List HostEvent} (hc : s.cfg.Wf) (hb : s.bus = .poll :: rest) :
    step s = hostPoll { s with bus := rest } := by
  simp only [step, machineStep, if_pos hc, hb, hostEvent]

/-- A turn of the poll loop with BUSY = 1 reads left reads BUSY = 1 and stays ahead of the host's later events (R211). -/
theorem step_poll_more {s : State} {rest : List HostEvent} {f : InFlight} {k : Nat} (hc : s.cfg.Wf) (hb : s.bus = .poll :: rest)
    (hf : s.inflight = some f) (hk : f.busyReads = k + 1) :
    step s = .next { s with
      inflight := some { f with busyReads := k }
      replies := statusBits true f.shownUf f.shownErr :: s.replies
      draws := s.draws + 1 } := by
  rw [step_poll hc hb, hostPoll, State.readStatus, State.advance_more (s := { s with bus := rest }) hf hk, hb]
  rfl

/-- The last turn of the poll loop reads BUSY = 0 with the command's own UF and ERR (R211). -/
theorem step_poll_last {s : State} {rest : List HostEvent} {f : InFlight} (hc : s.cfg.Wf) (hb : s.bus = .poll :: rest)
    (hf : s.inflight = some f) (h0 : f.busyReads = 0) :
    step s = .next { s with
      inflight := none
      bus := rest
      replies := statusBits false s.uf s.err :: s.replies
      draws := s.draws + 1 } := by
  rw [step_poll hc hb, hostPoll, State.readStatus, State.advance_last (s := { s with bus := rest }) hf h0]
  rfl

/-- The state after `k` turns of the poll loop that read BUSY = 1. -/
def State.polled (s : State) (f : InFlight) (k : Nat) : State :=
  { s with
    inflight := some { f with busyReads := f.busyReads - k }
    replies := List.replicate k (statusBits true f.shownUf f.shownErr) ++ s.replies
    draws := s.draws + k }

/-- While BUSY = 1 reads are left, each turn of the poll loop uses up one (R211). -/
theorem runSteps_poll {s : State} {rest : List HostEvent} {f : InFlight} (hc : s.cfg.Wf) (hb : s.bus = .poll :: rest)
    (hf : s.inflight = some f) {k : Nat} (hk : k ≤ f.busyReads) : runSteps k s = .next (s.polled f k) := by
  induction k with
  | zero =>
    rw [runSteps]
    simp [State.polled, ← hf]
  | succ k ih =>
    have hleft : f.busyReads - k = (f.busyReads - (k + 1)) + 1 := by omega
    rw [runSteps_succ_of_next (ih (by omega)), step_poll_more (s := s.polled f k) hc hb rfl hleft]
    rfl

/-- Settles O56: all BUSY = 1 reads by `runSteps_poll`, and then the last turn. -/
theorem pollEndsWithBusyZero : Obligations.PollEndsWithBusyZero := by
  intro s rest f hc hf hb
  rw [runSteps_succ_of_next (runSteps_poll hc hb hf le_rfl)]
  exact step_poll_last (s := s.polled f f.busyReads) hc hb rfl (Nat.sub_self _)

/-! ### Clock cycles -/

/-- A step with no host event is a clock cycle (R209). -/
theorem step_of_no_event {s : State} (hc : s.cfg.Wf) (hb : s.bus = []) : step s = .next s.cycle := by
  simp only [step, machineStep, if_pos hc, hb]

/-- The state after `m` clock cycles that do not complete the command `f` in flight. -/
def State.waited (s : State) (f : InFlight) (m : Nat) : State :=
  { s with inflight := some { f with cycles := f.cycles - m } }

/-- Fewer clock cycles than a command in flight has left bring it nearer its completion and change nothing else (R209). -/
theorem runSteps_wait {s : State} {f : InFlight} (hc : s.cfg.Wf) (hb : s.bus = []) (hf : s.inflight = some f) {m : Nat}
    (hm : m < f.cycles) : runSteps m s = .next (s.waited f m) := by
  induction m with
  | zero =>
    rw [runSteps]
    simp [State.waited, ← hf]
  | succ m ih =>
    have hleft : ¬f.cycles - m ≤ 1 := by omega
    rw [runSteps_succ_of_next (ih (by omega)), step_of_no_event (s := s.waited f m) hc hb]
    simp only [State.cycle, State.waited, if_neg hleft, Nat.sub_sub]

/-- A command in flight completes after as many clock cycles as it has left (R209). -/
theorem runSteps_cycles {s : State} {f : InFlight} (hc : s.cfg.Wf) (hb : s.bus = []) (hf : s.inflight = some f)
    (hpos : 1 ≤ f.cycles) : runSteps f.cycles s = .next { s with inflight := none } := by
  obtain ⟨n, hn⟩ := Nat.exists_eq_add_of_le' hpos
  have hleft : f.cycles - n ≤ 1 := by omega
  rw [hn, runSteps_succ_of_next (runSteps_wait hc hb hf (by omega)), step_of_no_event (s := s.waited f n) hc hb]
  simp only [State.cycle, State.waited, if_pos hleft]

/-- Settles O57: a command in flight has between 1 and LAT_MAX cycles left under the invariant, and it is in flight until the last one. -/
theorem latencyIsBounded : Obligations.LatencyIsBounded := by
  intro s h hbusy hb
  obtain ⟨hc, -, -, -, hflight⟩ := h
  obtain ⟨f, hf⟩ := Option.isSome_iff_exists.1 hbusy
  obtain ⟨hpos, hmax, -⟩ := hflight f hf
  exact ⟨f.cycles, hpos, hmax, runSteps_cycles hc hb hf hpos, fun m hm => ⟨_, runSteps_wait hc hb hf hm, rfl⟩⟩

end Sys2Proof.Machine
end

section
/-!
PROOFS. The host window's memory slots: the words of the registers (R52), the bytes of STRBUF (R53), the reserved slots (R54) and the accesses that are undefined (R55).
-/

namespace Sys2Proof.Machine

/-! ### Offsets and slots -/

/-- The address of word `j` of register `r` is that of a defined access (R52). -/
theorem offsetOf_bigWord (c : Config) (r : RegIdx) {j : Nat} (h : j < 1024) :
    OffsetOf c (c.base + 0x10000 + 0x1000 * r.val + 4 * j) (0x10000 + 0x1000 * r.val + 4 * j) := by
  have hr := r.isLt
  refine ⟨?_, ?_, ?_⟩ <;> omega

/-- The address of byte `j` of STRBUF is that of a defined access (R53). -/
theorem offsetOf_strByte (c : Config) {j : Nat} (h : j < 16384) :
    OffsetOf c (c.base + 0x20000 + 4 * j) (0x20000 + 4 * j) := by
  refine ⟨?_, ?_, ?_⟩ <;> omega

/-- The two reserved ranges of R51. -/
theorem slotAt_of_reserved {off : Nat} (h : (0x20 ≤ off ∧ off ≤ 0xFFFF) ∨ (0x30000 ≤ off ∧ off ≤ 0xFFFFF)) :
    slotAt off = .reserved := by
  unfold slotAt
  rcases h with ⟨hlo, hhi⟩ | ⟨hlo, hhi⟩
  · rw [if_neg (by omega), if_pos (by omega)]
  · rw [if_neg (by omega), if_neg (by omega), if_neg (by omega), if_neg (by omega)]

/-! ### Steps at a slot while BUSY = 0 -/

/-- A read at the address of a slot replies what the slot reads as (R58). -/
theorem step_readAt {s : State} {rest : List HostEvent} {addr off : Nat} {slot : Slot} (hc : s.cfg.Wf) (hi : s.busy = false)
    (ho : OffsetOf s.cfg addr off) (hs : slotAt off = slot) (hb : s.bus = .read 32 addr :: rest) :
    step s = .next (({ s with bus := rest } : State).reply (s.slotValue slot)) := by
  obtain ⟨rfl, hlt, h4⟩ := ho
  exact hs ▸ step_read_of_idle hc hi hlt h4 hb

/-- A write at the address of a slot other than CMD does what the slot says (R58). -/
theorem step_writeAt {s t : State} {rest : List HostEvent} {addr off : Nat} {slot : Slot} {v : HostWord} (hc : s.cfg.Wf)
    (hi : s.busy = false) (ho : OffsetOf s.cfg addr off) (hs : slotAt off = slot) (hne : slot ≠ .cmd)
    (hw : ({ s with bus := rest } : State).writeSlot slot v = t) (hb : s.bus = .write 32 addr v :: rest) : step s = .next t := by
  obtain ⟨rfl, hlt, h4⟩ := ho
  subst hs hw
  exact step_write_of_idle hc hi hlt h4 hne hb

/-! ### What a memory slot reads as -/

/-- A word of W bits fits a host word (R7). -/
theorem Config.Wf.two_pow_wordBits_le {c : Config} (h : c.Wf) : 2 ^ c.wordBits ≤ 2 ^ 32 := by
  obtain ⟨hw, -⟩ := h
  exact Nat.pow_le_pow_right (by decide) (by omega)

/-- A slot below K reads as its word, zero-extended, and a slot at or above K as 0 (R52). -/
theorem State.slotValue_bigWord_toNat {s : State} (h : s.Inv) (r : RegIdx) (j : Nat) :
    (s.slotValue (.bigWord r j)).toNat = if j < s.cfg.wordCount then (s.words r).getD j 0 else 0 := by
  obtain ⟨hlen, hword⟩ := State.words_wf h r
  rw [State.slotValue]
  split
  · next hj =>
    have hj' : j < (s.words r).length := hlen ▸ hj
    have hlt : (s.words r)[j] < 2 ^ 32 := (hword _ (List.getElem_mem hj')).trans_le (Config.Wf.two_pow_wordBits_le h.1)
    rw [List.getD_eq_getElem _ _ hj', BitVec.toNat_ofNat, Nat.mod_eq_of_lt hlt]
  · rfl

/-- A slot below STRBUF_BYTES reads as its byte, zero-extended, and a slot at or above it as 0 (R53). -/
theorem State.slotValue_strByte_toNat (s : State) (j : Nat) :
    (s.slotValue (.strByte j)).toNat = if j < s.cfg.strbufBytes then (s.strByte j).toNat else 0 := by
  rw [State.slotValue]
  split
  · exact BitVec.toNat_setWidth_of_le (by decide)
  · rfl

/-! ### What a write of a memory slot does -/

theorem State.writeSlot_bigWord_of_lt (s : State) (r : RegIdx) {j : Nat} (v : HostWord) (h : j < s.cfg.wordCount) :
    s.writeSlot (.bigWord r j) v = s.writeWord r j v.toNat := if_pos h

theorem State.writeSlot_bigWord_of_le (s : State) (r : RegIdx) {j : Nat} (v : HostWord) (h : s.cfg.wordCount ≤ j) :
    s.writeSlot (.bigWord r j) v = s := if_neg (Nat.not_lt.2 h)

theorem State.writeSlot_strByte_of_lt (s : State) {j : Nat} (v : HostWord) (h : j < s.cfg.strbufBytes) :
    s.writeSlot (.strByte j) v = s.writeBytes j [v.setWidth 8] := if_pos h

theorem State.writeSlot_strByte_of_le (s : State) {j : Nat} (v : HostWord) (h : s.cfg.strbufBytes ≤ j) :
    s.writeSlot (.strByte j) v = s := if_neg (Nat.not_lt.2 h)

/-- The word the host writes is stored mod 2^W and is written (R52, R25). -/
theorem State.writeWord_getElem?_self {s : State} {r : RegIdx} {j : Nat} (h : j < s.regs[r].length) (v : Nat) :
    (s.writeWord r j v).regs[r][j]? = some { val := v % 2 ^ s.cfg.wordBits, written := true } := by
  rw [State.writeWord_regs_self, List.getElem?_set_self h]

/-- The other words of the register are as before (R52). -/
theorem State.writeWord_getElem?_other (s : State) (r : RegIdx) {j k : Nat} (h : k ≠ j) (v : Nat) :
    (s.writeWord r j v).regs[r][k]? = s.regs[r][k]? := by
  rw [State.writeWord_regs_self, List.getElem?_set_ne h.symm]

/-- The byte the host writes is stored and is written (R53, R25). -/
theorem State.read_writeBytes_one (s : State) (j : Nat) (v : Byte) :
    Memory.read? (s.writeBytes j [v]).strbuf j = some v := Memory.read_write_self s.strbuf j v

/-! ### Undefined accesses -/

/-- A read in the window that is not an aligned 32-bit access faults (R55). -/
theorem step_read_undefined {s : State} {rest : List HostEvent} {width off : Nat} (hc : s.cfg.Wf) (ho : off < 2 ^ 20)
    (ha : ¬(width = 32 ∧ off % 4 = 0)) (hb : s.bus = .read width (s.cfg.base + off) :: rest) : step s = .fault .badAccess := by
  simp [step, machineStep, if_pos hc, hb, hostEvent, hostRead, windowOffset_of ho, mt accessDefined_true.1 ha]

/-- A write in the window that is not an aligned 32-bit access faults (R55). -/
theorem step_write_undefined {s : State} {rest : List HostEvent} {width off : Nat} {v : HostWord} (hc : s.cfg.Wf)
    (ho : off < 2 ^ 20) (ha : ¬(width = 32 ∧ off % 4 = 0)) (hb : s.bus = .write width (s.cfg.base + off) v :: rest) :
    step s = .fault .badAccess := by
  simp [step, machineStep, if_pos hc, hb, hostEvent, hostWrite, windowOffset_of ho, mt accessDefined_true.1 ha]

/-- A CMD write is answered with a next state, whatever the word (R77). -/
theorem cmdWrite_ne_fault (w : HostWord) (s : State) (f : Fault) : cmdWrite w s ≠ .fault f := by
  unfold cmdWrite
  split
  · exact nofun
  · rw [exec_eq]
    exact nofun

/-- A defined read faults only as a hazard (R204). -/
theorem readSlot_ne_badAccess (slot : Slot) (s : State) : readSlot slot s ≠ .fault .badAccess := by
  unfold readSlot
  split
  · exact nofun
  · split <;> exact nofun

/-- A defined write faults only as a hazard (R204, R206). -/
theorem writeSlot_ne_badAccess (slot : Slot) (v : HostWord) (s : State) : writeSlot slot v s ≠ .fault .badAccess := by
  unfold writeSlot
  split
  · exact nofun
  · split
    · exact cmdWrite_ne_fault v s .badAccess
    · exact nofun

/-! ### The obligations -/

/-- Settles O49: the slot by its address; a reply is a word below 2^W, and a write is the one of `State.writeWord`. -/
theorem bigNumberWindow : Obligations.BigNumberWindow := by
  intro s rest r j v h hi hj
  have ⟨hc, hregs, _⟩ := h
  have ho := offsetOf_bigWord s.cfg r hj
  have hs := slotAt_of_bigWord r hj
  refine ⟨fun hb => ⟨_, step_readAt hc hi ho hs hb, rfl, ?_, rfl⟩, fun hb hk => ?_, fun hb hk => ?_⟩
  · exact congrArg some (State.slotValue_bigWord_toNat h r j)
  · exact step_writeAt hc hi ho hs nofun (State.writeSlot_bigWord_of_le { s with bus := rest } r v hk) hb
  · have hlen : j < s.regs[r].length := hk.trans_eq (hregs r).1.symm
    exact ⟨_, step_writeAt hc hi ho hs nofun (State.writeSlot_bigWord_of_lt { s with bus := rest } r v hk) hb, rfl,
      State.writeWord_getElem?_self hlen _, fun k hne => State.writeWord_getElem?_other _ r hne _,
      fun q hne => State.writeWord_regs_other j _ hne⟩

/-- Settles O50: the slot by its address; a write is one of a single byte. -/
theorem strbufWindow : Obligations.StrbufWindow := by
  intro s rest j v h hi hj
  have ho := offsetOf_strByte s.cfg hj
  have hs := slotAt_of_strByte hj
  refine ⟨fun hb => ⟨_, step_readAt h.1 hi ho hs hb, rfl, ?_, rfl⟩, fun hb hk => ?_, fun hb hk => ?_⟩
  · exact congrArg some (State.slotValue_strByte_toNat s j)
  · exact step_writeAt h.1 hi ho hs nofun (State.writeSlot_strByte_of_le { s with bus := rest } v hk) hb
  · refine ⟨_, step_writeAt h.1 hi ho hs nofun (State.writeSlot_strByte_of_lt { s with bus := rest } v hk) hb, rfl, ?_,
      fun k hne => Memory.read_write_other _ hne⟩
    rw [State.read_writeBytes_one, Option.map_some, BitVec.toNat_setWidth]

/-- Settles O51: every offset of the two ranges is a reserved slot, which reads as 0 and has no write. -/
theorem reservedSlotsReadZero : Obligations.ReservedSlotsReadZero := by
  intro s rest off v hc hi h4 hoff
  have ho : OffsetOf s.cfg (s.cfg.base + off) off := ⟨rfl, by omega, h4⟩
  have hs := slotAt_of_reserved hoff
  exact ⟨step_readAt hc hi ho hs, step_writeAt hc hi ho hs nofun rfl⟩

/-- Settles O53: an undefined access faults as such, and a defined one is the read or write of its slot, which never does. -/
theorem undefinedAccessFaults : Obligations.UndefinedAccessFaults := by
  intro s rest width addr v hc hb hlo hhi
  obtain ⟨off, rfl⟩ := Nat.exists_eq_add_of_le hlo
  have ho : off < 2 ^ 20 := by omega
  rw [Nat.add_sub_cancel_left]
  constructor
  · rintro hf ⟨rfl, h4⟩
    rcases hb with hb | hb
    · exact readSlot_ne_badAccess _ _ ((step_read hc ho h4 hb).symm.trans hf)
    · exact writeSlot_ne_badAccess _ _ _ ((step_write hc ho h4 hb).symm.trans hf)
  · intro ha
    rcases hb with hb | hb
    · exact step_read_undefined hc ho ha hb
    · exact step_write_undefined hc ho ha hb

end Sys2Proof.Machine
end

section
/-!
PROOFS. Encoding and decoding (R70, R71, R74 to R77): a row selects a word exactly when the word is legal by the prose of R75 and has the row's opcode, so decoding is
a look-up by opcode in the opcode table.
-/

namespace Sys2Proof

open Machine

/-! ### A word and its fields -/

theorem bitsOf_eq_extractLsb' (w : HostWord) (hi lo : Nat) : bitsOf w hi lo = (w.extractLsb' lo (hi - lo + 1)).toNat := by
  simp [bitsOf, Nat.shiftRight_eq_div_pow]

/-- Masking acts field by field. -/
theorem bitsOf_and (w m : HostWord) (hi lo : Nat) : bitsOf (w &&& m) hi lo = bitsOf w hi lo &&& bitsOf m hi lo := by
  simp only [bitsOf_eq_extractLsb', BitVec.extractLsb'_and, BitVec.toNat_and]

/-- A mask with ones in all bits of a field keeps the field. -/
theorem bitsOf_and_ones (w : HostWord) (hi lo : Nat) : bitsOf w hi lo &&& (2 ^ (hi - lo + 1) - 1) = bitsOf w hi lo := by
  rw [Nat.and_two_pow_sub_one_eq_mod, bitsOf, Nat.mod_mod]

/-- A mask of a register field that has ones only where the field is unused asks an unused field to be zero (R74). -/
theorem bitsOf_and_unused (w : HostWord) (hi lo : Nat) (hfour : hi - lo = 3) {used : Bool} :
    bitsOf w hi lo &&& (if used = true then 0 else 15) = 0 ↔ used = true ∨ bitsOf w hi lo = 0 := by
  have hkeep : bitsOf w hi lo &&& 15 = bitsOf w hi lo := by simpa [hfour] using bitsOf_and_ones w hi lo
  cases used with
  | true => simp
  | false => simp [hkeep]

/-- The seven fields of R70 determine the word. -/
theorem eq_iff_bitsOf (w v : HostWord) : w = v ↔
    bitsOf w 4 0 = bitsOf v 4 0 ∧ bitsOf w 7 5 = bitsOf v 7 5 ∧ bitsOf w 31 24 = bitsOf v 31 24 ∧ bitsOf w 11 8 = bitsOf v 11 8 ∧
    bitsOf w 15 12 = bitsOf v 15 12 ∧ bitsOf w 19 16 = bitsOf v 19 16 ∧ bitsOf w 23 20 = bitsOf v 23 20 := by
  constructor
  · rintro rfl
    exact ⟨rfl, rfl, rfl, rfl, rfl, rfl, rfl⟩
  · intro h
    have hw := w.isLt
    have hv := v.isLt
    simp only [bitsOf] at h
    norm_num at h
    exact BitVec.eq_of_toNat_eq (by omega)

/-- A value below 2^5 is an opcode with every other field zero. -/
theorem bitsOf_opcode {v : HostWord} (hv : v.toNat < 32) :
    bitsOf v 4 0 = v.toNat ∧ bitsOf v 7 5 = 0 ∧ bitsOf v 31 24 = 0 ∧ bitsOf v 11 8 = 0 ∧
    bitsOf v 15 12 = 0 ∧ bitsOf v 19 16 = 0 ∧ bitsOf v 23 20 = 0 := by
  simp only [bitsOf]
  norm_num
  omega

/-- A word is the packing of its fields when its reserved bits are zero (R70). -/
theorem packWord_fields {w : HostWord} (hlo : bitsOf w 7 5 = 0) (hhi : bitsOf w 31 24 = 0) :
    packWord (BitVec.ofNat 5 (bitsOf w 4 0)) (fieldD w) (fieldA w) (fieldB w) (fieldE w) = w := by
  have hw := w.isLt
  simp only [bitsOf] at hlo hhi ⊢
  norm_num at hlo hhi ⊢
  apply BitVec.eq_of_toNat_eq
  rw [packWord_toNat, fieldD_toNat, fieldA_toNat, fieldB_toNat, fieldE_toNat, BitVec.toNat_ofNat]
  omega

/-! ### Legal words -/

/-- What R75 asks of the bits of `w` outside its opcode when that has format `f`: the reserved bits and the register fields `f` does not use are zero. -/
def Format.Fits (f : Format) (w : HostWord) : Prop :=
  bitsOf w 7 5 = 0 ∧ bitsOf w 31 24 = 0 ∧ (f.usesD = true ∨ bitsOf w 11 8 = 0) ∧ (f.usesA = true ∨ bitsOf w 15 12 = 0) ∧
    (f.usesB = true ∨ bitsOf w 19 16 = 0) ∧ (f.usesE = true ∨ bitsOf w 23 20 = 0)

/-- R75: a word is legal when its opcode has a format and the rest of it fits the format. -/
theorem wordLegal_iff {w : HostWord} :
    wordLegal w = true ↔ ∃ f, formatOfOpcode (bitsOf w 4 0) = some f ∧ f.Fits w := by
  unfold wordLegal
  cases hf : formatOfOpcode (bitsOf w 4 0) with
  | none => simp
  | some f => simp [Format.Fits, and_assoc]

/-- Every opcode with a format has a row, and the other way round (R74). -/
theorem formatOfOpcode_isSome {k : Nat} : (formatOfOpcode k).isSome = true ↔ k < 23 := by
  constructor
  · intro h
    by_contra hk
    have hnone : formatOfOpcode k = none := by
      unfold formatOfOpcode
      repeat rw [if_neg (by omega)]
    simp [hnone] at h
  · intro hk
    interval_cases k <;> rfl

/-- The opcode of a legal word has a row. -/
theorem opcode_lt_of_legal {w : HostWord} (hl : wordLegal w = true) : bitsOf w 4 0 < 23 := by
  obtain ⟨f, hf, -⟩ := wordLegal_iff.1 hl
  exact formatOfOpcode_isSome.1 (Option.isSome_of_eq_some hf)

/-- The word of every command is legal (R71, R75). -/
theorem wordLegal_encode (i : Instr) : wordLegal (encode i) = true := by
  cases i with
  | add d a b => exact Laws.LegalWord.add d a b
  | sub d a b => exact Laws.LegalWord.sub d a b
  | mul d a b => exact Laws.LegalWord.mul d a b
  | div d a b => exact Laws.LegalWord.div d a b
  | and d a b => exact Laws.LegalWord.and d a b
  | or d a b => exact Laws.LegalWord.or d a b
  | xor d a b => exact Laws.LegalWord.xor d a b
  | pow d a b => exact Laws.LegalWord.pow d a b
  | mod d a b => exact Laws.LegalWord.mod d a b
  | rshift d a => exact Laws.LegalWord.rshift d a
  | lshift d a => exact Laws.LegalWord.lshift d a
  | isqrt d a => exact Laws.LegalWord.isqrt d a
  | divmod d e a b => exact Laws.LegalWord.divmod d e a b
  | inc d => exact Laws.LegalWord.inc d
  | dec d => exact Laws.LegalWord.dec d
  | cmp a b => exact Laws.LegalWord.cmp a b
  | iszero a => exact Laws.LegalWord.iszero a
  | init d => exact Laws.LegalWord.init d
  | fromint d => exact Laws.LegalWord.fromint d
  | toint a => exact Laws.LegalWord.toint a
  | assign d a => exact Laws.LegalWord.assign d a
  | tostr a => exact Laws.LegalWord.tostr a
  | fromstr d => exact Laws.LegalWord.fromstr d

/-! ### The opcode table -/

/-- The rows of R74 stand in the order of their opcodes, 0 to 22. -/
theorem opcodeRows_values : opcodeRows.map (·.value.toNat) = List.range 23 := by decide

/-- The mask of format `f` has ones in the opcode, the reserved bits and the register fields that `f` does not use (R71, R74). -/
abbrev Format.Masks (f : Format) (m : HostWord) : Prop :=
  bitsOf m 4 0 = 31 ∧ bitsOf m 7 5 = 7 ∧ bitsOf m 31 24 = 255 ∧
    bitsOf m 11 8 = (if f.usesD then 0 else 15) ∧ bitsOf m 15 12 = (if f.usesA then 0 else 15) ∧
    bitsOf m 19 16 = (if f.usesB then 0 else 15) ∧ bitsOf m 23 20 = (if f.usesE then 0 else 15)

/-- The mask of every row is that of the format R71 gives its opcode. -/
theorem masks_of_mem_opcodeRows : ∀ r ∈ opcodeRows, ∀ f ∈ formatOfOpcode r.value.toNat, f.Masks r.mask := by decide

theorem getElem?_opcodeRows_value {k : Nat} {r : OpcodeRow} (h : opcodeRows[k]? = some r) : k < 23 ∧ r.value.toNat = k := by
  have hk : (List.range 23)[k]? = some r.value.toNat := by rw [← opcodeRows_values, List.getElem?_map, h, Option.map_some]
  obtain ⟨hlt, hv⟩ := List.getElem?_eq_some_iff.1 hk
  rw [List.getElem_range] at hv
  exact ⟨by simpa using hlt, hv.symm⟩

/-- A word under the mask of a format is a bare opcode exactly when the word has that opcode and fits the format (R74, R75). -/
theorem Format.Masks.and_eq_iff {f : Format} {m v : HostWord} (hm : f.Masks m) (hv : v.toNat < 32) (w : HostWord) :
    w &&& m = v ↔ bitsOf w 4 0 = v.toNat ∧ f.Fits w := by
  obtain ⟨m0, m1, m2, mD, mA, mB, mE⟩ := hm
  obtain ⟨v0, v1, v2, vD, vA, vB, vE⟩ := bitsOf_opcode hv
  have h0 : bitsOf w 4 0 &&& 31 = bitsOf w 4 0 := bitsOf_and_ones w 4 0
  have h1 : bitsOf w 7 5 &&& 7 = bitsOf w 7 5 := bitsOf_and_ones w 7 5
  have h2 : bitsOf w 31 24 &&& 255 = bitsOf w 31 24 := bitsOf_and_ones w 31 24
  rw [eq_iff_bitsOf]
  simp only [bitsOf_and, m0, m1, m2, mD, mA, mB, mE, v0, v1, v2, vD, vA, vB, vE, h0, h1, h2, bitsOf_and_unused w 11 8 rfl,
    bitsOf_and_unused w 15 12 rfl, bitsOf_and_unused w 19 16 rfl, bitsOf_and_unused w 23 20 rfl, Format.Fits]

/-- A row selects exactly the legal words with its opcode (R74, R75). -/
theorem OpcodeRow.selects_iff {r : OpcodeRow} (hr : r ∈ opcodeRows) (w : HostWord) :
    r.selects w = true ↔ r.value.toNat = bitsOf w 4 0 ∧ wordLegal w = true := by
  obtain ⟨k, hk⟩ := List.getElem?_of_mem hr
  obtain ⟨hlt, hv⟩ := getElem?_opcodeRows_value hk
  obtain ⟨f, hf⟩ := Option.isSome_iff_exists.1 (formatOfOpcode_isSome.2 hlt)
  rw [← hv] at hf
  have hsel := (masks_of_mem_opcodeRows r hr f hf).and_eq_iff (v := r.value) (by omega) w
  rw [OpcodeRow.selects, beq_iff_eq, hsel, wordLegal_iff, eq_comm (a := bitsOf w 4 0)]
  refine and_congr_right fun ho => ?_
  rw [← ho, hf]
  simp

/-- The row a legal word selects is the one at its opcode; an illegal word selects none (R75, R77). -/
theorem selectRow_eq (w : HostWord) : selectRow w = if wordLegal w = true then opcodeRows[bitsOf w 4 0]? else none := by
  split
  · next hl =>
    have hlt : bitsOf w 4 0 < opcodeRows.length := opcode_lt_of_legal hl
    rw [List.getElem?_eq_getElem hlt, selectRow, List.find?_eq_some_iff_getElem]
    refine ⟨(OpcodeRow.selects_iff (List.getElem_mem hlt) w).2 ⟨?_, hl⟩, bitsOf w 4 0, hlt, rfl, fun j hj => ?_⟩
    · exact (getElem?_opcodeRows_value (List.getElem?_eq_getElem hlt)).2
    · have hjlt : j < opcodeRows.length := hj.trans hlt
      have hv := (getElem?_opcodeRows_value (List.getElem?_eq_getElem hjlt)).2
      rw [Bool.not_eq_true', ← Bool.not_eq_true, OpcodeRow.selects_iff (List.getElem_mem hjlt)]
      omega
  · next hl =>
    refine List.find?_eq_none.2 fun r hr => ?_
    rw [OpcodeRow.selects_iff hr]
    exact fun h => hl h.2

/-- A legal word decodes to the command of the row at its opcode on its fields (R77). -/
theorem decode_of_legal {w : HostWord} (hl : wordLegal w = true) :
    decode w = opcodeRows[bitsOf w 4 0]?.map fun r => r.command (fieldD w) (fieldA w) (fieldB w) (fieldE w) := by
  rw [decode, selectRow_eq, if_pos hl]

/-- A word decodes to nothing exactly when it is illegal (R75). -/
theorem decode_eq_none_iff (w : HostWord) : decode w = none ↔ wordLegal w = false := by
  rw [decode, Option.map_eq_none_iff, selectRow_eq]
  split
  · next hl =>
    have hlt : bitsOf w 4 0 < opcodeRows.length := opcode_lt_of_legal hl
    simp [hl, hlt]
  · next hl => simpa using hl

theorem wordLegal_of_decode {w : HostWord} {i : Instr} (h : decode w = some i) : wordLegal w = true := by
  rw [← Bool.not_eq_false, ← decode_eq_none_iff, h]
  exact nofun

/-- A legal word built from its fields decodes to the command of its row on these fields. -/
theorem decode_packWord {opc : BitVec 5} {d a b e : RegIdx} (hl : wordLegal (packWord opc d a b e) = true) :
    decode (packWord opc d a b e) = opcodeRows[opc.toNat]?.map fun r => r.command d a b e := by
  obtain ⟨hopc, -⟩ := Laws.LegalWord.fields_packWord opc d a b e
  rw [decode_of_legal hl, hopc, fieldD_packWord, fieldA_packWord, fieldB_packWord, fieldE_packWord]

/-- The encoder writes a row's command with the row's opcode, the fields of its format, and zero in the fields it does not use (R71, R74). -/
theorem encode_command {k : Nat} {r : OpcodeRow} {f : Format} (hr : opcodeRows[k]? = some r) (hf : formatOfOpcode k = some f)
    (d a b e : RegIdx) : encode (r.command d a b e) = packWord (BitVec.ofNat 5 k) (if f.usesD = true then d else 0)
      (if f.usesA = true then a else 0) (if f.usesB = true then b else 0) (if f.usesE = true then e else 0) := by
  obtain ⟨hk, -⟩ := getElem?_opcodeRows_value hr
  interval_cases k <;> cases hr <;> cases hf <;> rfl

/-- A field that is zero where it is unused is kept. -/
theorem keep_field {used : Bool} {x : RegIdx} (h : used = true ∨ x.val = 0) : (if used = true then x else 0) = x := by
  rcases h with h | h
  · exact if_pos h
  · obtain rfl : x = 0 := Fin.ext h
    exact ite_self 0

/-- The word of the command at a legal word's opcode on its fields is the word. -/
theorem encode_command_fields {w : HostWord} {r : OpcodeRow} (hl : wordLegal w = true) (hr : opcodeRows[bitsOf w 4 0]? = some r) :
    encode (r.command (fieldD w) (fieldA w) (fieldB w) (fieldE w)) = w := by
  obtain ⟨f, hf, hlo, hhi, hd, ha, hb, he⟩ := wordLegal_iff.1 hl
  rw [encode_command hr hf, keep_field (hd.imp_right (fieldD_toNat w).trans), keep_field (ha.imp_right (fieldA_toNat w).trans),
    keep_field (hb.imp_right (fieldB_toNat w).trans), keep_field (he.imp_right (fieldE_toNat w).trans), packWord_fields hlo hhi]

/-! ### Illegal words on the machine -/

theorem Machine.cmdWrite_of_illegal {w : HostWord} (hd : decode w = none) (s : State) :
    cmdWrite w s = .next (s.concludeIllegal w) := by
  simp [cmdWrite, hd]

/-- What an illegal word leaves (R171, R173). -/
theorem Machine.State.concludeIllegal_failed (s : State) (w : HostWord) :
    Failed w none .illegalCmd s (s.concludeIllegal w) :=
  ⟨rfl, rfl, rfl, State.launch_started _ _ _ _, ⟨rfl, rfl, rfl, rfl, fun _ _ => rfl⟩, fun _ => rfl, rfl⟩

/-! ### The obligations -/

/-- Settles O1: the word of each command is legal, so it decodes by the row at its opcode. -/
theorem decodeInvertsEncode : Obligations.DecodeInvertsEncode := by
  intro i
  have hl := wordLegal_encode i
  cases i <;> exact decode_packWord hl

/-- Settles O2: a word that decodes is legal, so its unused fields are zero, as the encoder writes them. -/
theorem encodeInvertsDecode : Obligations.EncodeInvertsDecode := by
  intro w i h
  have hl := wordLegal_of_decode h
  rw [decode_of_legal hl] at h
  obtain ⟨r, hr, rfl⟩ := Option.map_eq_some_iff.1 h
  exact encode_command_fields hl hr

/-- Settles O3: the rows that select a word have its opcode, and the 23 rows have different opcodes. -/
theorem atMostOneRowSelects : Obligations.AtMostOneRowSelects := by
  intro w
  have hopc : ∀ r ∈ opcodeRows, r.selects w = true → (r.value.toNat == bitsOf w 4 0) = true := fun r hr hs =>
    beq_iff_eq.2 ((OpcodeRow.selects_iff hr w).1 hs).1
  calc (opcodeRows.filter fun r => r.selects w).length
      = opcodeRows.countP fun r => r.selects w := List.countP_eq_length_filter.symm
    _ ≤ opcodeRows.countP fun r => r.value.toNat == bitsOf w 4 0 := List.countP_mono_left hopc
    _ = (opcodeRows.map (·.value.toNat)).count (bitsOf w 4 0) := by rw [List.count_eq_countP, List.countP_map]; rfl
    _ = (List.range 23).count (bitsOf w 4 0) := by rw [opcodeRows_values]
    _ ≤ 1 := List.nodup_iff_count_le_one.1 List.nodup_range _

/-- Settles O4: an illegal word has no row, and the machine answers it with the error completion alone. -/
theorem illegalWordCompletesWithError : Obligations.IllegalWordCompletesWithError :=
  fun w => ⟨decode_eq_none_iff w, fun s hd => ⟨_, cmdWrite_of_illegal hd s, State.concludeIllegal_failed s w⟩⟩

/-- Settles O5: the table on the words of R83. -/
theorem encodingExamplesDecode : Obligations.EncodingExamplesDecode := by
  unfold Obligations.EncodingExamplesDecode
  decide

end Sys2Proof
end

section
/-!
PROOFS. What the completion of a command rests on: the free values of an aliased command (R79, R80), the operand snapshot of every command (R78), and ARG as the host
sets it (R26, R82).
-/

namespace Sys2Proof.Machine

/-! ### Registers after several writes -/

/-- A register that is written holds the words of one of the values given for it, which one is the same in every state (R24, R25). -/
theorem State.writeRegs_regs_written {l : List (RegIdx × Nat)} {r : RegIdx} (h : r ∈ l.map Prod.fst) :
    ∃ v, (r, v) ∈ l ∧ ∀ s : State, (s.writeRegs l).regs[r] =
      (wordsOf s.cfg.wordBits s.cfg.wordCount v).map fun x => { val := x, written := true } := by
  induction l with
  | nil => simp at h
  | cons p l ih =>
    by_cases hl : r ∈ l.map Prod.fst
    · obtain ⟨v, hv, hregs⟩ := ih hl
      exact ⟨v, List.mem_cons_of_mem p hv, fun s => hregs (s.writeReg p.1 p.2)⟩
    · obtain rfl : r = p.1 := (List.mem_cons.1 h).resolve_right hl
      refine ⟨p.2, List.mem_cons_self, fun s => ?_⟩
      rw [State.writeRegs_cons, State.writeRegs_regs_other hl, State.writeReg_regs_self]

/-- The value written to a destination of a successful command, and the words that leaves there. -/
theorem State.writeRegs_settled_destination {s : State} {i : Instr} {e : Effect} {al : Bool} {r : RegIdx}
    (he : completionOf i s = .success e) (hr : r ∈ destinations i) :
    ∃ v, (r, v) ∈ s.settled al e.regs ∧ ∀ t : State, (t.writeRegs (s.settled al e.regs)).regs[r] =
      (wordsOf t.cfg.wordBits t.cfg.wordCount v).map fun x => { val := x, written := true } := by
  apply State.writeRegs_regs_written
  rw [State.settled_fst, completionOf_regs he]
  exact hr

/-! ### Aliased commands -/

theorem destinationIsSource_iff (i : Instr) :
    destinationIsSource i = true ↔ ∃ r, r ∈ destinations i ∧ r ∈ sources i := by
  simp [destinationIsSource]

/-- R80: DIVMOD is aliased also when its two destinations coincide; ASSIGN and the commands with no source or no destination never are. -/
theorem aliased_iff (i : Instr) : aliased i = true ↔
    (∃ d a b, i = .divmod d d a b) ∨ ((∀ d a, i ≠ .assign d a) ∧ ∃ r, r ∈ destinations i ∧ r ∈ sources i) := by
  cases i
  case divmod d e a b =>
    have hde : (∃ d' a' b', Instr.divmod d e a b = .divmod d' d' a' b') ↔ d = e := by
      constructor
      · rintro ⟨d', a', b', h⟩
        injection h with hd he
        exact hd.trans he.symm
      · rintro rfl
        exact ⟨d, a, b, rfl⟩
    rw [aliased, Bool.or_eq_true, beq_iff_eq, destinationIsSource_iff, hde, or_comm, and_iff_right nofun]
  case assign => simp [aliased]
  case inc | dec | cmp | iszero | init | fromint | toint | tostr | fromstr => simp [aliased, destinations, sources]
  all_goals simp [aliased, destinationIsSource_iff]

/-- An aliased success leaves its free value in each destination (R80). -/
theorem State.conclude_aliased_holds {s : State} {i : Instr} {e : Effect} {r : RegIdx} (hc : s.cfg.Wf) (ha : aliased i = true)
    (he : completionOf i s = .success e) (hr : r ∈ destinations i) :
    Holds (s.conclude i (.success e)) r (Config.draw s.draws (.aliasedDst r) % s.cfg.modulus) := by
  obtain ⟨v, hv, hregs⟩ := State.writeRegs_settled_destination (al := true) he hr
  obtain ⟨p, -, hp⟩ := List.mem_map.1 hv
  obtain ⟨rfl, rfl⟩ := Prod.mk.inj hp
  rw [State.conclude_success, ha]
  have h := State.holds_of_regs (t := (s.succeed true e).launch s (encode i) (some (s.snapshot i))) (by simpa using hregs s)
  simpa [Config.modulus, Config.Wf.bits_eq hc] using h

/-! ### The snapshot determines the completion -/

section Snapshot

variable {s s' : State} {i : Instr}

theorem State.x_eq_of_snapshot (h : s.snapshot i = s'.snapshot i) {r : RegIdx} (hr : r ∈ snapshotRegs i) : s.x r = s'.x r :=
  (Prod.mk.inj (List.map_inj_left.1 (congrArg Snapshot.regs h) r hr)).2

theorem State.arg_eq_of_snapshot (h : s.snapshot i = s'.snapshot i) (hi : readsArg i = true) : s.arg = s'.arg := by
  have harg := congrArg Snapshot.arg h
  simpa [State.snapshot, hi] using harg

theorem State.words_eq_of_x (hs : s.Inv) (hs' : s'.Inv) (hc : s.cfg = s'.cfg) {r : RegIdx} (hx : s.x r = s'.x r) :
    s.words r = s'.words r := by
  rw [State.words_eq hs, State.words_eq hs', hc, hx]

theorem State.argNat_eq_of_snapshot (h : s.snapshot i = s'.snapshot i) (hi : readsArg i = true) : s.argNat = s'.argNat :=
  congrArg BitVec.toNat (State.arg_eq_of_snapshot h hi)

/-- R78: the completion of a command is a function of the configuration and the snapshot. -/
theorem completionOf_eq_of_snapshot (hs : s.Inv) (hs' : s'.Inv) (hc : s.cfg = s'.cfg) (h : s.snapshot i = s'.snapshot i) :
    completionOf i s = completionOf i s' := by
  have hx : ∀ r ∈ snapshotRegs i, s.x r = s'.x r := fun r => State.x_eq_of_snapshot h
  have hwords : ∀ r ∈ snapshotRegs i, s.words r = s'.words r := fun r hr => State.words_eq_of_x hs hs' hc (hx r hr)
  have harg : readsArg i = true → s.argNat = s'.argNat := State.argNat_eq_of_snapshot h
  have hbytes : s.strBytes (s.snapshotLength i) = s'.strBytes (s'.snapshotLength i) := congrArg Snapshot.bytes h
  cases i
  case init d => rfl
  case fromint d => rw [completionOf, completionOf, hc, harg rfl]
  case fromstr d =>
    have hparsed : s.strBytes s.parseLength = s'.strBytes s'.parseLength := hbytes
    rw [completionOf, completionOf, hc, harg rfl, hparsed]
  all_goals simp only [snapshotRegs, sources, List.forall_mem_cons] at hx hwords
  case and d a b | or d a b | xor d a b => simp only [completionOf, hc, hwords]
  case rshift d a | lshift d a | tostr a => simp only [completionOf, hc, harg rfl, hx]
  all_goals simp only [completionOf, hc, hx]

end Snapshot

/-! ### What a completion leaves, alike in two states -/

theorem State.settled_congr {s s' : State} (hc : s.cfg = s'.cfg) (hd : s.draws = s'.draws) (al : Bool) (l : List (RegIdx × Nat)) :
    s.settled al l = s'.settled al l := by
  rw [State.settled, State.settled, hc, hd]

/-- A success leaves the same words in its destinations, free values included, whatever state of one configuration and draw it ends. -/
theorem State.conclude_regs_destination_congr {s s' : State} {i : Instr} {e : Effect} {r : RegIdx} (hc : s.cfg = s'.cfg)
    (hd : s.draws = s'.draws) (he : completionOf i s = .success e) (hr : r ∈ destinations i) :
    (s.conclude i (.success e)).regs[r] = (s'.conclude i (.success e)).regs[r] := by
  obtain ⟨v, -, hregs⟩ := State.writeRegs_settled_destination (al := aliased i) he hr
  simp only [State.conclude_success, State.launch_regs, State.succeed_regs, ← State.settled_congr hc hd]
  rw [hregs s, hregs s', hc]

/-- CMP, ISZERO, TOINT and TOSTR write RES (R27). -/
theorem completionOf_res_ne_none {i : Instr} {s : State} {e : Effect} (he : completionOf i s = .success e)
    (hi : (∃ a b, i = .cmp a b) ∨ ∃ a, i = .iszero a ∨ i = .toint a ∨ i = .tostr a) : e.res ≠ none := by
  rcases hi with ⟨a, b, rfl⟩ | ⟨a, rfl | rfl | rfl⟩
  · cases he
    exact nofun
  · cases he
    exact nofun
  · cases he
    exact nofun
  · obtain ⟨v, text, rfl⟩ := tostrCompletion_success he
    exact nofun

/-- A success ends with the same RES where it writes RES or RES was the same (R27). -/
theorem State.conclude_res_congr {s s' : State} {i : Instr} {e : Effect} (h : s.res = s'.res ∨ e.res ≠ none) :
    (s.conclude i (.success e)).res = (s'.conclude i (.success e)).res := by
  simp only [State.conclude_success, State.launch_res, State.succeed_res]
  rcases h with h | h
  · rw [h]
  · obtain ⟨v, hv⟩ := Option.ne_none_iff_exists'.1 h
    simp [hv]

/-- The terminator stands at the index TOSTR returns in RES, so the text is longer (R161). -/
theorem tostrCompletion_res_lt {c : Config} {a cap : Nat} {e : Effect} {old : Scalar} (h : tostrCompletion c a cap = .success e) :
    (e.res.getD old).toNat < e.text.length := by
  unfold tostrCompletion at h
  split at h
  · cases h
  · split at h
    · cases h
    · injection h with h
      subst h
      simp only [Option.getD_some, BitVec.toNat_ofNat, List.length_append, List.length_map, List.length_singleton]
      exact Nat.lt_succ_of_le (Nat.mod_le _ _)

/-- The bytes a success stores do not depend on what STRBUF held (R161). -/
theorem State.conclude_read_text (s : State) (i : Instr) {e : Effect} {j : Nat} (hj : j < e.text.length) :
    Memory.read? (s.conclude i (.success e)).strbuf j = some e.text[j] := by
  rw [State.conclude_success, State.launch_strbuf, State.succeed_strbuf, ← Memory.read_writeAll_inside (j := 0) hj, Nat.zero_add]

/-! ### ARG from its halves -/

theorem step_writeArgLo {s : State} {rest : List HostEvent} {v : HostWord} (hc : s.cfg.Wf) (hi : s.busy = false)
    (hb : s.bus = wr s.cfg .argLo v :: rest) : step s = .next (({ s with bus := rest } : State).writeArgLo v) :=
  step_writeAt (slot := .argLo) hc hi ⟨rfl, by decide, rfl⟩ rfl nofun rfl hb

theorem step_writeArgHi {s : State} {rest : List HostEvent} {v : HostWord} (hc : s.cfg.Wf) (hi : s.busy = false)
    (hb : s.bus = wr s.cfg .argHi v :: rest) : step s = .next (({ s with bus := rest } : State).writeArgHi v) :=
  step_writeAt (slot := .argHi) hc hi ⟨rfl, by decide, rfl⟩ rfl nofun rfl hb

/-- Writing the low and then the high half of `v` leaves ARG = v (R26). -/
theorem State.writeArg_halves_arg (s : State) (v : Scalar) :
    ((s.writeArgLo (BitVec.ofNat 32 (v.toNat % 2 ^ 32))).writeArgHi (BitVec.ofNat 32 (v.toNat / 2 ^ 32))).arg = v := by
  have hv := v.isLt
  have hs := s.arg.isLt
  apply BitVec.eq_of_toNat_eq
  simp only [State.writeArgHi_arg, State.writeArgLo_arg, BitVec.toNat_ofNat]
  omega

/-! ### The obligations -/

/-- Settles O40: an error is excluded by ERR = 0, and a success writes the free value to each destination. -/
theorem aliasedDestinationsAreFree : Obligations.AliasedDestinationsAreFree := by
  intro i
  refine ⟨aliased_iff i, fun s t hc ha h hok r hr => ?_⟩
  rcases exec_cases h with ⟨e, he, rfl⟩ | ⟨c, he, rfl⟩
  · have hholds := State.conclude_aliased_holds hc ha he hr
    exact ⟨hholds.2.trans_lt (Nat.mod_lt _ (Config.modulus_pos _)), hholds⟩
  · exact absurd hok (completionOf_error he)

/-- Settles O44: the two states end with one completion, which leaves the same in both where it writes. -/
theorem snapshotDeterminesResult : Obligations.SnapshotDeterminesResult := by
  intro i s s' t t' hs hs' hc hd hsnap h h'
  rw [exec_eq] at h h'
  injection h with h
  injection h' with h'
  subst h h'
  rw [← completionOf_eq_of_snapshot hs hs' hc hsnap]
  cases he : completionOf i s with
  | error c => exact ⟨rfl, rfl, fun hok => absurd hok (completionOf_error he)⟩
  | success e =>
    refine ⟨rfl, rfl, fun _ => ⟨fun r => State.conclude_regs_destination_congr hc hd he, fun hres => ?_, ?_⟩⟩
    · exact State.conclude_res_congr (hres.imp_right (completionOf_res_ne_none he))
    · rintro a rfl j hj
      have hlt : j < e.text.length := hj.trans_lt (tostrCompletion_res_lt he)
      rw [State.conclude_read_text s _ hlt, State.conclude_read_text s' _ hlt]
      exact ⟨rfl, nofun⟩

/-- Settles O60: the first write is a step at ARG_LO, the second one at ARG_HI. -/
theorem setargSetsArg : Obligations.SetargSetsArg := by
  intro s rest v hc hi hb
  have hlo := step_writeArgLo hc hi hb
  have hfirst := (runSteps_succ_of_next (n := 0) (s := s) rfl).trans hlo
  have hsecond := (runSteps_succ_of_next hfirst).trans (step_writeArgHi hc hi rfl)
  have harg := State.writeArg_halves_arg s v
  exact hsecond.trans (congrArg (fun a => Host.Outcome.next { s with arg := a, bus := rest }) harg)

end Sys2Proof.Machine
end

section
/-!
PROOFS. The representation layer (R100 to R103): the words a command leaves in its destination (R22), then INIT, FROMINT, TOINT and ASSIGN.
-/

namespace Sys2Proof.Machine

/-! ### The words of a value -/

/-- Word `j` of a value (R22). -/
theorem getD_wordsOf {w k j : Nat} (v : Nat) (h : j < k) : (wordsOf w k v).getD j 0 = v / 2 ^ (w * j) % 2 ^ w := by
  have hj : j < (wordsOf w k v).length := (length_wordsOf w k v).symm ▸ h
  rw [List.getD_eq_getElem _ _ hj, getElem_wordsOf]

/-- The K words of a value are those of its residue modulo 2^(W·K): both have that residue as their value, and words in range are determined by it (R23). -/
theorem wordsOf_mod (w k v : Nat) : wordsOf w k (v % 2 ^ (w * k)) = wordsOf w k v := by
  have h := wordsOf_valueOf (xs := wordsOf w k v) fun _ => wordsOf_lt
  rwa [length_wordsOf, valueOf_wordsOf] at h

/-! ### The words of a destination -/

/-- A command whose completion is one register write leaves the words of the value there, unless it is aliased (R22, R24). -/
theorem exec_words {i : Instr} {s t : State} {u : Bool} {d : RegIdx} {v : Nat} (hx : exec i s = .next t)
    (h : completionOf i s = .success { uf := u, regs := [(d, v)] }) (ha : aliased i = false) :
    t.words d = wordsOf s.cfg.wordBits s.cfg.wordCount v := by
  rw [exec_eq, h, State.conclude_success, ha] at hx
  injection hx with hx
  subst hx
  rw [State.words, State.launch_regs, State.succeed_regs, State.settled_plain, State.writeRegs_cons, State.writeRegs_nil,
    State.writeReg_regs_self, resolveWords_written]

/-! ### The obligations -/

/-- Settles O13: the value as for every register write, and the words from those of ARG mod M, which are ARG's; ARG itself is below 2^64. -/
theorem fromintLoadsArg : Obligations.FromintLoadsArg := by
  intro s d hc
  have hval : s.argNat % s.cfg.modulus % s.cfg.modulus = s.arg.toNat % 2 ^ s.cfg.totalBits := Nat.mod_mod _ _
  obtain ⟨t, ht, hok, hres, hbuf, hholds⟩ := writesRegister_of (i := .fromint d) hc rfl hval
  have hwords : t.words d = wordsOf s.cfg.wordBits s.cfg.wordCount s.arg.toNat := by
    rw [exec_words ht rfl rfl, Config.modulus, ← Config.Wf.bits_eq hc, wordsOf_mod, State.argNat]
  refine ⟨packWord_toNat 18 d 0 0 0, t, ht, hok, hres, hbuf, hholds rfl, fun j hj => ?_, fun j hj h64 => ?_⟩
  · rw [hwords, getD_wordsOf _ hj]
  · have harg : s.arg.toNat < 2 ^ (s.cfg.wordBits * j) :=
      s.arg.isLt.trans_le (Nat.pow_le_pow_right Nat.two_pos h64)
    rw [hwords, getD_wordsOf _ hj, Nat.div_eq_of_lt harg, Nat.zero_mod]

/-- Settles O15: x[A] is below M under the invariant, so the write keeps it, and ASSIGN is never aliased. -/
theorem assignCopies : Obligations.AssignCopies := by
  intro s d a h
  have hval : s.x a % s.cfg.modulus = s.x a := Nat.mod_eq_of_lt (State.x_lt h a)
  exact ⟨writesRegister_of h.1 rfl hval, rfl, packWord_toNat 20 d a 0 0⟩

/-- Settles O12: INIT writes the value 0, whatever its register held. -/
theorem initWritesZero : Obligations.InitWritesZero := fun s d hc =>
  ⟨writesRegister_of hc rfl (Nat.zero_mod s.cfg.modulus), rfl, packWord_toNat 17 d 0 0 0⟩

/-- Settles O14: RES has 64 bits, which truncates x[A]. -/
theorem tointTruncates : Obligations.TointTruncates := fun s a =>
  ⟨writesResult_of rfl (BitVec.toNat_ofNat (s.x a) 64), packWord_toNat 19 0 a 0 0⟩

end Sys2Proof.Machine
end

section
/-!
PROOFS. The comparator (R110 to R113): the scan of R111 gives the order of the values, then CMP and ISZERO.
-/

namespace Sys2Proof.Machine

/-! ### The value of a sequence -/

/-- The later words of a sequence weigh 2^W for each word before them (R22). -/
theorem valueOf_append (w : Nat) (xs ys : List Nat) :
    valueOf w (xs ++ ys) = valueOf w xs + 2 ^ (w * xs.length) * valueOf w ys := by
  induction xs with
  | nil => simp
  | cons x xs ih =>
    simp only [List.cons_append, valueOf_cons, ih, List.length_cons]
    ring

/-- As `valueOf_lt`, for words most significant first. -/
theorem valueOf_reverse_lt {w : Nat} {xs : List Nat} (h : ∀ x ∈ xs, x < 2 ^ w) :
    valueOf w xs.reverse < 2 ^ (w * xs.length) := by
  have hlt := valueOf_lt (xs := xs.reverse) fun x hx => h x (List.mem_reverse.1 hx)
  rwa [List.length_reverse] at hlt

/-- Zero has one representation (R23). -/
theorem valueOf_eq_zero_iff (w : Nat) (xs : List Nat) : valueOf w xs = 0 ↔ ∀ x ∈ xs, x = 0 := by
  induction xs with
  | nil => simp
  | cons x xs ih => simp [ih]

/-! ### The comparator on values -/

theorem compareValues_larger (a b : Nat) : compareValues a b = .larger ↔ a > b := by
  unfold compareValues
  split_ifs with hgt <;> simp [hgt]

/-- The more significant parts `x` and `y` decide, unless they are equal: the less significant parts do not reach their weight `p` (R111). -/
theorem compareValues_add_mul {p a b : Nat} (ha : a < p) (hb : b < p) (x y : Nat) :
    compareValues (a + p * x) (b + p * y) =
      if x > y then .larger else if x < y then .smaller else compareValues a b := by
  rcases Nat.lt_trichotomy x y with hlt | rfl | hgt
  · have hp : p * x + p ≤ p * y := Nat.mul_le_mul_left p hlt
    rw [if_neg hlt.not_gt, if_pos hlt, compareValues_smaller]
    omega
  · simp [compareValues]
  · have hp : p * y + p ≤ p * x := Nat.mul_le_mul_left p hgt
    rw [if_pos hgt, compareValues_larger]
    omega

/-- RES as a number, for each of the three results (R110). -/
theorem compareValues_code_toNat (a b : Nat) :
    (compareValues a b).code.toNat = if a > b then 1 else if a = b then 0 else 2 ^ 64 - 1 := by
  unfold compareValues
  split_ifs <;> rfl

/-! ### The comparator on words -/

/-- The scan over words in range, most significant first: the value of the words that follow stays below the weight of the first one (R111). -/
theorem scanWords_eq_compareValues {w : Nat} {xs ys : List Nat} (h : WordsOk w xs ys) :
    scanWords xs ys = compareValues (valueOf w xs.reverse) (valueOf w ys.reverse) := by
  induction xs generalizing ys with
  | nil =>
    obtain rfl := List.eq_nil_of_length_eq_zero h.1.symm
    rfl
  | cons x xs ih =>
    obtain ⟨hlen, hx, hy⟩ := h
    cases ys with
    | nil => cases hlen
    | cons y ys =>
      have hlen : xs.length = ys.length := Nat.succ.inj hlen
      have hxs := (List.forall_mem_cons.1 hx).2
      have hys := (List.forall_mem_cons.1 hy).2
      have hylt := valueOf_reverse_lt hys
      rw [← hlen] at hylt
      simp only [List.reverse_cons, valueOf_append, List.length_reverse, ← hlen, valueOf_cons, valueOf_nil, Nat.mul_zero,
        Nat.add_zero]
      rw [scanWords, ih ⟨hlen, hxs, hys⟩, compareValues_add_mul (valueOf_reverse_lt hxs) hylt]

/-! ### The obligations -/

/-- Settles O18: the scan runs over the reversed words, whose reversals are the words themselves. -/
theorem scanComparesValues : Obligations.ScanComparesValues := by
  intro w xs ys ⟨hlen, hx, hy⟩
  have hrev : WordsOk w xs.reverse ys.reverse := ⟨by simpa using hlen, by simpa using hx, by simpa using hy⟩
  rw [scanCompare, scanWords_eq_compareValues hrev, List.reverse_reverse, List.reverse_reverse]

/-- Settles O16: CMP only writes RES, the code of the comparator's result. -/
theorem cmpIsThreeWay : Obligations.CmpIsThreeWay := fun s a b =>
  ⟨writesResult_of rfl (compareValues_code_toNat (s.x a) (s.x b)), packWord_toNat 15 0 a b 0⟩

/-- Settles O17: ISZERO only writes RES, and the value of a register is 0 exactly when its words are. -/
theorem iszeroTestsEveryWord : Obligations.IszeroTestsEveryWord := fun s a =>
  ⟨writesResult_of rfl (apply_ite BitVec.toNat (s.x a = 0) 1 0), valueOf_eq_zero_iff s.cfg.wordBits (s.words a),
    packWord_toNat 16 0 a 0 0⟩

end Sys2Proof.Machine
end

section
/-!
PROOFS. The additive family (R120 to R126): ADD, SUB, INC and DEC by value, then the word-level datapaths, which compute the same values.
-/

namespace Sys2Proof.Machine

/-! ### The wrapped difference -/

theorem subMod_lt {m a : Nat} (ha : a < m) (b : Nat) : subMod m a b < m := by
  unfold subMod
  split_ifs <;> omega

/-- The wrapped difference is the integer difference modulo M (R122). -/
theorem subMod_intCast {m a b : Nat} (ha : a < m) (hb : b ≤ m) : (subMod m a b : Int) = ((a : Int) - b) % (m : Int) := by
  unfold subMod
  split_ifs with hle
  · rw [Int.emod_eq_of_lt (by omega) (by omega)]
    omega
  · rw [← Int.add_emod_right, Int.emod_eq_of_lt (by omega) (by omega)]
    omega

/-- How a datapath shows that it computed the wrapped difference: M was borrowed exactly for `a < b` (R122, R123). -/
theorem eq_subMod_of_add_eq {m a b r : Nat} (h : r + b = a + m * if a < b then 1 else 0) : r = subMod m a b := by
  unfold subMod
  split_ifs at h ⊢ <;> omega

/-- A command whose completion writes a wrapped difference leaves the integer difference modulo M. -/
theorem writesRegister_of_subMod {i : Instr} {s : State} {u : Bool} {d : RegIdx} {a b : Nat} (hc : s.cfg.Wf)
    (h : completionOf i s = .success { uf := u, regs := [(d, subMod s.cfg.modulus a b)] })
    (ha : a < s.cfg.modulus) (hb : b ≤ s.cfg.modulus) :
    WritesRegister i u d (((a : Int) - b) % (s.cfg.modulus : Int)).toNat s := by
  apply writesRegister_of hc h
  rw [Nat.mod_eq_of_lt (subMod_lt ha b), ← subMod_intCast ha hb, Int.toNat_natCast]

/-! ### Aliasing of two-source commands -/

/-- One destination and two sources: a destination is a source when it is one of the two (R80). -/
theorem destinationIsSource_pair_iff {i : Instr} {d a b : RegIdx} (hd : destinations i = [d]) (hs : sources i = [a, b]) :
    destinationIsSource i = true ↔ d = a ∨ d = b := by
  simp [destinationIsSource_iff, hd, hs]

/-! ### The obligations on commands -/

/-- Settles O19: ADD is one register write of the sum, already reduced. -/
theorem addIsSumModM : Obligations.AddIsSumModM := fun s d a b hc =>
  ⟨writesRegister_of hc rfl (Nat.mod_mod (s.x a + s.x b) s.cfg.modulus), destinationIsSource_pair_iff rfl rfl,
    packWord_toNat 0 d a b 0⟩

/-- Settles O20: both operands are below M under the invariant, and UF is the comparator's answer. -/
theorem subWrapsAndReports : Obligations.SubWrapsAndReports := by
  intro s d a b h
  have hcompletion : completionOf (.sub d a b) s =
      .success { uf := decide (s.x a < s.x b), regs := [(d, subMod s.cfg.modulus (s.x a) (s.x b))] } := by
    rw [completionOf, ufOfSub_eq]
  exact ⟨writesRegister_of_subMod h.1 hcompletion (State.x_lt h a) (State.x_lt h b).le, destinationIsSource_pair_iff rfl rfl,
    packWord_toNat 1 d a b 0⟩

/-- Settles O21: INC adds and DEC subtracts the value one, which M ≥ 1 admits. -/
theorem incDecInPlace : Obligations.IncDecInPlace := by
  intro s d h
  have hcompletion : completionOf (.dec d) s =
      .success { uf := decide (s.x d = 0), regs := [(d, subMod s.cfg.modulus (s.x d) 1)] } := by
    rw [completionOf, ufOfDec_eq]
  have hinc := writesRegister_of (i := .inc d) h.1 rfl (Nat.mod_mod (s.x d + 1) s.cfg.modulus)
  have hdec := writesRegister_of_subMod h.1 hcompletion (State.x_lt h d) (Config.modulus_pos s.cfg)
  exact ⟨⟨hinc, rfl, packWord_toNat 13 d 0 0 0⟩, hdec, rfl, packWord_toNat 14 d 0 0 0⟩

/-! ### Words and weights -/

/-- The words after the first weigh 2^W. -/
theorem two_pow_mul_succ (w k : Nat) : 2 ^ (w * (k + 1)) = 2 ^ w * 2 ^ (w * k) := by
  rw [Nat.mul_succ, Nat.add_comm, pow_add]

/-- A sum `t` at the first word leaves its remainder by the weight `p` there and carries its quotient into the part `v` of that weight (R121). -/
theorem add_mul_mod_mul {p : Nat} (hp : 0 < p) (q t v : Nat) : (t + p * v) % (p * q) = t % p + p * ((v + t / p) % q) := by
  rw [Nat.mod_mul, Nat.add_mul_mod_self_left, Nat.add_mul_div_left _ _ hp, Nat.add_comm v]

/-- `x` below `c` is a borrow from the parts `u` and `v` of weight `p`: neither `x` nor `c` is more than `p` (R123). -/
theorem add_mul_lt_add_mul_iff {p x c : Nat} (hx : x < p) (hc : c ≤ p) (u v : Nat) :
    x + p * u < c + p * v ↔ u < v + if x < c then 1 else 0 := by
  rcases Nat.lt_trichotomy u v with hlt | rfl | hgt
  · have hp : p * u + p ≤ p * v := Nat.mul_le_mul_left p hlt
    exact iff_of_true (by omega) (by omega)
  · split_ifs <;> omega
  · have hp : p * v + p ≤ p * u := Nat.mul_le_mul_left p hgt
    exact iff_of_false (by omega) (by split_ifs <;> omega)

theorem wordsOk_cons {w x y : Nat} {xs ys : List Nat} :
    WordsOk w (x :: xs) (y :: ys) ↔ x < 2 ^ w ∧ y < 2 ^ w ∧ WordsOk w xs ys := by
  simp only [WordsOk, List.length_cons, Nat.succ_inj, List.forall_mem_cons]
  tauto

/-! ### The carry-propagate datapath -/

/-- The words are those of the sum of the values and the carry into word 0: of each word's sum the remainder stays and the quotient is the carry (R121). -/
theorem valueOf_carryAdd (w carry : Nat) {xs ys : List Nat} (h : xs.length = ys.length) :
    valueOf w (carryAdd w carry xs ys) = (valueOf w xs + valueOf w ys + carry) % 2 ^ (w * xs.length) := by
  induction xs generalizing carry ys with
  | nil => simp [carryAdd, Nat.mod_one]
  | cons x xs ih =>
    cases ys with
    | nil => cases h
    | cons y ys =>
      have hsum : valueOf w (x :: xs) + valueOf w (y :: ys) + carry =
          x + y + carry + 2 ^ w * (valueOf w xs + valueOf w ys) := by
        simp only [valueOf_cons]
        ring
      rw [carryAdd, valueOf_cons, ih _ (Nat.succ.inj h), hsum, List.length_cons, two_pow_mul_succ,
        add_mul_mod_mul (Nat.two_pow_pos w)]

theorem length_carryAdd (w carry : Nat) {xs ys : List Nat} (h : xs.length = ys.length) :
    (carryAdd w carry xs ys).length = xs.length := by
  induction xs generalizing carry ys with
  | nil => rfl
  | cons x xs ih =>
    cases ys with
    | nil => cases h
    | cons y ys => simp [carryAdd, ih _ (Nat.succ.inj h)]

theorem carryAdd_lt {w carry : Nat} {xs ys : List Nat} : ∀ z ∈ carryAdd w carry xs ys, z < 2 ^ w := by
  induction xs generalizing carry ys with
  | nil => nofun
  | cons x xs ih =>
    cases ys with
    | nil => nofun
    | cons y ys => exact List.forall_mem_cons.2 ⟨Nat.mod_lt _ (Nat.two_pow_pos w), ih⟩

/-- Settles O22: the datapath starts with no carry. -/
theorem carryAddIsSum : Obligations.CarryAddIsSum := fun w _ _ ⟨hlen, _, _⟩ =>
  ⟨valueOf_carryAdd w 0 hlen, length_carryAdd w 0 hlen, carryAdd_lt⟩

/-! ### The borrow-propagate datapath -/

/-- The borrow out of a word: 1 when the word `x` falls below what is subtracted from it (R123). -/
def borrowOut (x y borrow : Nat) : Nat := if x < y + borrow then 1 else 0

theorem borrowOut_le_one (x y borrow : Nat) : borrowOut x y borrow ≤ 1 := by
  unfold borrowOut
  split_ifs <;> omega

/-- One word of the datapath: its borrow out is added to it at the weight 2^W (R123). -/
theorem borrowSub_cons (w borrow x y : Nat) (xs ys : List Nat) :
    borrowSub w borrow (x :: xs) (y :: ys) =
      ((x + 2 ^ w * borrowOut x y borrow - y - borrow) :: (borrowSub w (borrowOut x y borrow) xs ys).1,
        (borrowSub w (borrowOut x y borrow) xs ys).2) := by
  unfold borrowOut
  rw [borrowSub]
  split_ifs <;> simp

/-- The borrow out of the last word is that of the values, the borrow into word 0 counted (R123). -/
theorem borrowSub_borrow {w borrow : Nat} {xs ys : List Nat} (h : WordsOk w xs ys) (hb : borrow ≤ 1) :
    (borrowSub w borrow xs ys).2 = borrowOut (valueOf w xs) (valueOf w ys) borrow := by
  induction xs generalizing borrow ys with
  | nil =>
    obtain rfl := List.eq_nil_of_length_eq_zero h.1.symm
    interval_cases borrow <;> rfl
  | cons x xs ih =>
    cases ys with
    | nil => cases h.1
    | cons y ys =>
      obtain ⟨hx, hy, hrest⟩ := wordsOk_cons.1 h
      have hiff := add_mul_lt_add_mul_iff hx (show y + borrow ≤ 2 ^ w by omega) (valueOf w xs) (valueOf w ys)
      rw [borrowSub_cons, ih hrest (borrowOut_le_one x y borrow), valueOf_cons, valueOf_cons]
      exact if_congr (by rw [Nat.add_right_comm, hiff, borrowOut]) rfl rfl

/-- The words are those of the difference of the values, with the borrow out of the last word at the weight of the whole (R123). -/
theorem valueOf_borrowSub {w borrow : Nat} {xs ys : List Nat} (h : WordsOk w xs ys) (hb : borrow ≤ 1) :
    valueOf w (borrowSub w borrow xs ys).1 + valueOf w ys + borrow =
      valueOf w xs + 2 ^ (w * xs.length) * (borrowSub w borrow xs ys).2 := by
  induction xs generalizing borrow ys with
  | nil =>
    obtain rfl := List.eq_nil_of_length_eq_zero h.1.symm
    simp [borrowSub]
  | cons x xs ih =>
    cases ys with
    | nil => cases h.1
    | cons y ys =>
      obtain ⟨-, hy, hok⟩ := wordsOk_cons.1 h
      have hrest := ih hok (borrowOut_le_one x y borrow)
      have hword : x + 2 ^ w * borrowOut x y borrow - y - borrow + y + borrow = x + 2 ^ w * borrowOut x y borrow := by
        unfold borrowOut
        split_ifs <;> omega
      rw [borrowSub_cons, List.length_cons, two_pow_mul_succ]
      simp only [valueOf_cons]
      linear_combination hword + 2 ^ w * hrest

/-- Settles O23: the datapath starts with no borrow, and its words are the wrapped difference of the values. -/
theorem borrowSubIsDifference : Obligations.BorrowSubIsDifference := by
  intro w xs ys h
  have hborrow : (borrowSub w 0 xs ys).2 = if valueOf w xs < valueOf w ys then 1 else 0 := borrowSub_borrow h zero_le_one
  have hvalue : valueOf w (borrowSub w 0 xs ys).1 + valueOf w ys =
      valueOf w xs + 2 ^ (w * xs.length) * if valueOf w xs < valueOf w ys then 1 else 0 :=
    hborrow ▸ valueOf_borrowSub h zero_le_one
  obtain ⟨hlen, hx, hy⟩ := h
  have hylt : valueOf w ys < 2 ^ (w * xs.length) := hlen ▸ valueOf_lt hy
  rw [eq_subMod_of_add_eq hvalue]
  exact ⟨subMod_intCast (valueOf_lt hx) hylt.le, hborrow⟩

/-! ### The ripples -/

/-- The increment stops at a word that does not become 0, which has no carry out; one that does has the carry 1 (R126). -/
theorem valueOf_rippleInc {w : Nat} {xs : List Nat} (h : ∀ x ∈ xs, x < 2 ^ w) :
    valueOf w (rippleInc w xs) = (valueOf w xs + 1) % 2 ^ (w * xs.length) := by
  induction xs with
  | nil => simp [rippleInc]
  | cons x xs ih =>
    obtain ⟨hx, hxs⟩ := List.forall_mem_cons.1 h
    have hp : 0 < 2 ^ w := Nat.two_pow_pos w
    rw [valueOf_cons, Nat.add_right_comm, List.length_cons, two_pow_mul_succ, add_mul_mod_mul hp, rippleInc]
    obtain hlt | heq : x + 1 < 2 ^ w ∨ x + 1 = 2 ^ w := Nat.lt_or_eq_of_le hx
    · have hstop : (x + 1) % 2 ^ w ≠ 0 := by
        rw [Nat.mod_eq_of_lt hlt]
        exact x.succ_ne_zero
      rw [if_pos hstop, valueOf_cons, Nat.div_eq_of_lt hlt, Nat.add_zero (valueOf w xs), Nat.mod_eq_of_lt (valueOf_lt hxs)]
    · have hcarry : (x + 1) / 2 ^ w = 1 := by rw [heq, Nat.div_self hp]
      have hzero : (x + 1) % 2 ^ w = 0 := by rw [heq, Nat.mod_self]
      rw [if_neg (not_not.2 hzero), valueOf_cons, ih hxs, hcarry]

/-- The decrement stops at a word that was not 0, and borrows past the last word when every word was 0 (R126). -/
theorem valueOf_rippleDec (w : Nat) (xs : List Nat) :
    valueOf w (rippleDec w xs) + 1 = valueOf w xs + 2 ^ (w * xs.length) * if valueOf w xs < 1 then 1 else 0 := by
  induction xs with
  | nil => simp [rippleDec]
  | cons x xs ih =>
    rw [rippleDec]
    by_cases hx : x = 0
    · subst hx
      have hiff : 0 + 2 ^ w * valueOf w xs < 1 ↔ valueOf w xs < 1 := by simp
      have hword : 2 ^ w - 1 + 1 = 2 ^ w := Nat.sub_add_cancel (Nat.two_pow_pos w)
      rw [if_neg (not_not.2 rfl), valueOf_cons, valueOf_cons, if_congr hiff rfl rfl, List.length_cons, two_pow_mul_succ]
      linear_combination hword + 2 ^ w * ih
    · rw [if_pos hx, valueOf_cons, valueOf_cons, if_neg (by omega)]
      omega

/-- Settles O24: the decrement is the wrapped difference with one. -/
theorem rippleIsIncDec : Obligations.RippleIsIncDec := by
  intro w xs h
  refine ⟨valueOf_rippleInc h, ?_⟩
  rw [eq_subMod_of_add_eq (valueOf_rippleDec w xs)]
  exact subMod_intCast (valueOf_lt h) (Nat.two_pow_pos _)

end Sys2Proof.Machine
end

section
/-!
PROOFS. The bitwise family (R130 to R135): AND, OR and XOR word by word, LSHIFT and RSHIFT by value, then the barrel shifter, which computes the same values.
-/

namespace Sys2Proof.Machine

/-! ### AND, OR and XOR -/

/-- Words combined one by one: each result word is that of the two words at its index (R130 to R132). -/
theorem getD_zipWith {f : Nat → Nat → Nat} {xs ys : List Nat} {j : Nat} (hx : j < xs.length) (hy : j < ys.length) :
    (List.zipWith f xs ys).getD j 0 = f (xs.getD j 0) (ys.getD j 0) := by
  have hj : j < (List.zipWith f xs ys).length := by simpa using ⟨hx, hy⟩
  rw [List.getD_eq_getElem _ _ hj, List.getElem_zipWith, List.getD_eq_getElem _ _ hx, List.getD_eq_getElem _ _ hy]

/-- The words of combined words are these, when the operation stays in range (R23). -/
theorem wordsOf_combineWords {w : Nat} {f : Nat → Nat → Nat} (hf : ∀ x y, x < 2 ^ w → y < 2 ^ w → f x y < 2 ^ w)
    {xs ys : List Nat} (h : WordsOk w xs ys) : wordsOf w xs.length (combineWords w f xs ys) = List.zipWith f xs ys := by
  obtain ⟨hlen, hx, hy⟩ := h
  have hrange : ∀ z ∈ List.zipWith f xs ys, z < 2 ^ w := by
    intro z hz
    obtain ⟨j, hj, rfl⟩ := List.getElem_of_mem hz
    rw [List.getElem_zipWith]
    exact hf _ _ (hx _ (List.getElem_mem _)) (hy _ (List.getElem_mem _))
  have hwords := wordsOf_valueOf hrange
  rwa [List.length_zipWith, ← hlen, Nat.min_self] at hwords

/-- The words of two registers are a pair a datapath takes (R23). -/
theorem State.wordsOk {s : State} (h : s.Inv) (a b : RegIdx) : WordsOk s.cfg.wordBits (s.words a) (s.words b) := by
  obtain ⟨hlena, ha⟩ := State.words_wf h a
  obtain ⟨hlenb, hb⟩ := State.words_wf h b
  exact ⟨hlena.trans hlenb.symm, ha, hb⟩

/-- A command whose completion is the combined words of two registers, written to one: what its result statement needs. -/
theorem combinesWords_of {s : State} (h : s.Inv) {i : Instr} {d a b : RegIdx} {f : Nat → Nat → Nat}
    (hi : completionOf i s = .success { regs := [(d, combineWords s.cfg.wordBits f (s.words a) (s.words b))] })
    (hf : ∀ x y, x < 2 ^ s.cfg.wordBits → y < 2 ^ s.cfg.wordBits → f x y < 2 ^ s.cfg.wordBits) :
    ∃ t, exec i s = .next t ∧ Succeeded i false s t ∧ t.res = s.res ∧ SameStrbuf s t ∧
      (aliased i = false → t.regWritten d = true ∧
        ∀ j < s.cfg.wordCount, (t.words d).getD j 0 = f ((s.words a).getD j 0) ((s.words b).getD j 0)) := by
  obtain ⟨t, ht, hok, hres, hbuf, hholds⟩ := writesRegister_of h.1 hi rfl
  refine ⟨t, ht, hok, hres, hbuf, fun hal => ⟨(hholds hal).1, fun j hj => ?_⟩⟩
  have hlena : (s.words a).length = s.cfg.wordCount := (State.words_wf h a).1
  have hlenb : (s.words b).length = s.cfg.wordCount := (State.words_wf h b).1
  rw [exec_words ht hi hal, ← hlena, wordsOf_combineWords hf (State.wordsOk h a b),
    getD_zipWith (hlena ▸ hj) (hlenb ▸ hj)]

/-- Settles O25: none of the three operations leaves the range of a word. -/
theorem bitwiseActsPerWord : Obligations.BitwiseActsPerWord := by
  intro s d a b h i f opc hi
  rcases hi with ⟨rfl, rfl, rfl⟩ | ⟨rfl, rfl, rfl⟩ | ⟨rfl, rfl, rfl⟩
  · exact ⟨packWord_toNat 4 d a b 0, destinationIsSource_pair_iff rfl rfl,
      combinesWords_of h rfl fun x _ _ hy => Nat.and_lt_two_pow x hy⟩
  · exact ⟨packWord_toNat 5 d a b 0, destinationIsSource_pair_iff rfl rfl,
      combinesWords_of h rfl fun _ _ hx hy => Nat.or_lt_two_pow hx hy⟩
  · exact ⟨packWord_toNat 6 d a b 0, destinationIsSource_pair_iff rfl rfl,
      combinesWords_of h rfl fun _ _ hx hy => Nat.xor_lt_two_pow hx hy⟩

/-! ### LSHIFT and RSHIFT -/

/-- A count of N or more shifts every bit out to the left (R133). -/
theorem shiftLeftMod_eq (bits a n : Nat) : shiftLeftMod bits a n = a * 2 ^ n % 2 ^ bits := by
  unfold shiftLeftMod
  split_ifs with hn
  · rfl
  · have hdvd : 2 ^ bits ∣ a * 2 ^ n := dvd_mul_of_dvd_right (pow_dvd_pow 2 (Nat.le_of_not_lt hn)) a
    exact (Nat.mod_eq_zero_of_dvd hdvd).symm

/-- A count of N or more shifts every bit of a value below M out to the right (R134). -/
theorem shiftRightMod_eq {bits a : Nat} (ha : a < 2 ^ bits) (n : Nat) : shiftRightMod bits a n = a / 2 ^ n := by
  unfold shiftRightMod
  split_ifs with hn
  · rfl
  · exact (Nat.div_eq_of_lt (ha.trans_le (Nat.pow_le_pow_right Nat.two_pos (Nat.le_of_not_lt hn)))).symm

/-- One destination and one source (R80). -/
theorem destinationIsSource_single_iff {i : Instr} {d a : RegIdx} (hd : destinations i = [d]) (hs : sources i = [a]) :
    destinationIsSource i = true ↔ d = a := by
  simp [destinationIsSource_iff, hd, hs]

/-- Settles O26: LSHIFT is one register write of the shifted value, already reduced. -/
theorem lshiftMultiplies : Obligations.LshiftMultiplies := by
  intro s d a hc
  have hval : shiftLeftMod s.cfg.totalBits (s.x a) s.argNat % s.cfg.modulus =
      s.x a * 2 ^ s.arg.toNat % 2 ^ s.cfg.totalBits := by
    rw [shiftLeftMod_eq]
    exact Nat.mod_mod _ _
  exact ⟨writesRegister_of hc rfl hval, destinationIsSource_single_iff rfl rfl, packWord_toNat 10 d a 0 0⟩

/-- Settles O27: x[A] is below M under the invariant, and the quotient is no larger. -/
theorem rshiftDivides : Obligations.RshiftDivides := by
  intro s d a h
  have hx : s.x a < s.cfg.modulus := State.x_lt h a
  have hval : shiftRightMod s.cfg.totalBits (s.x a) s.argNat % s.cfg.modulus = s.x a / 2 ^ s.arg.toNat := by
    rw [shiftRightMod_eq hx]
    exact Nat.mod_eq_of_lt ((Nat.div_le_self _ _).trans_lt hx)
  exact ⟨writesRegister_of h.1 rfl hval, destinationIsSource_single_iff rfl rfl, packWord_toNat 9 d a 0 0⟩

/-! ### The barrel shifter -/

/-- Word `j` of a sequence in range is that of its value, 0 past the last word included (R22). -/
theorem getD_eq_valueOf_div {w : Nat} {xs : List Nat} (h : ∀ x ∈ xs, x < 2 ^ w) (j : Nat) :
    xs.getD j 0 = valueOf w xs / 2 ^ (w * j) % 2 ^ w := by
  obtain hj | hj := Nat.lt_or_ge j xs.length
  · rw [← getD_wordsOf _ hj, wordsOf_valueOf h]
  · have hlt : valueOf w xs < 2 ^ (w * j) :=
      (valueOf_lt h).trans_le (Nat.pow_le_pow_right Nat.two_pos (Nat.mul_le_mul_left w hj))
    rw [List.getD_eq_default _ _ hj, Nat.div_eq_of_lt hlt, Nat.zero_mod]

/-- The word `ws` places above word `j` (R135). -/
theorem wordAt_add {w : Nat} {xs : List Nat} (h : ∀ x ∈ xs, x < 2 ^ w) (j ws : Nat) :
    wordAt xs ((j : Int) + ws) = valueOf w xs / 2 ^ (w * (j + ws)) % 2 ^ w := by
  rw [← getD_eq_valueOf_div h, wordAt, if_neg (by omega)]
  rfl

/-- The word `ws` places below word `j` is word `j` of the value moved up by `ws` words, whose low words are 0 (R135). -/
theorem wordAt_sub {w : Nat} {xs : List Nat} (h : ∀ x ∈ xs, x < 2 ^ w) (j ws : Nat) :
    wordAt xs ((j : Int) - ws) = valueOf w xs * 2 ^ (w * ws) / 2 ^ (w * j) % 2 ^ w := by
  obtain hj | hj := Nat.lt_or_ge j ws
  · obtain ⟨m, rfl⟩ := Nat.exists_eq_add_of_lt hj
    have hmoved : valueOf w xs * 2 ^ (w * (j + m + 1)) = 2 ^ (w * j) * (2 ^ w * (valueOf w xs * 2 ^ (w * m))) := by ring
    rw [wordAt, if_pos (by omega), hmoved, Nat.mul_div_cancel_left _ (Nat.two_pow_pos _), Nat.mul_mod_right]
  · obtain ⟨i, rfl⟩ := Nat.exists_eq_add_of_le hj
    have hindex : ((ws + i : Nat) : Int) - ws = (i : Int) + (0 : Nat) := by omega
    rw [hindex, wordAt_add h, Nat.mul_add w ws, pow_add, Nat.mul_comm _ (2 ^ (w * ws)),
      Nat.mul_div_mul_left _ _ (Nat.two_pow_pos _), Nat.add_zero]

/-- A word that straddles two words of `u` from bit `c` on: the high bits of the lower one below the low bits of the upper one (R135). -/
theorem div_two_pow_mod_straddle {w c : Nat} (hc : c ≤ w) (u : Nat) :
    u / 2 ^ c % 2 ^ w = (u % 2 ^ w / 2 ^ c + u / 2 ^ w % 2 ^ w * 2 ^ (w - c)) % 2 ^ w := by
  have hsplit : u = u % 2 ^ w + 2 ^ c * (u / 2 ^ w * 2 ^ (w - c)) := by
    calc u = u % 2 ^ w + 2 ^ w * (u / 2 ^ w) := (Nat.mod_add_div u _).symm
      _ = u % 2 ^ w + 2 ^ c * (u / 2 ^ w * 2 ^ (w - c)) := by
        rw [Nat.mul_comm (u / 2 ^ w), ← Nat.mul_assoc, pow_mul_pow_sub 2 hc]
  have hquot : u / 2 ^ c = u % 2 ^ w / 2 ^ c + u / 2 ^ w * 2 ^ (w - c) := by
    conv_lhs => rw [hsplit]
    exact Nat.add_mul_div_left _ _ (Nat.two_pow_pos c)
  have hlow : u / 2 ^ w ≡ u / 2 ^ w % 2 ^ w [MOD 2 ^ w] := (Nat.mod_modEq _ _).symm
  rw [hquot]
  exact (hlow.mul_right _).add_left _

/-- A sequence given word by word, over word indices as integers as in R135, is that of the value with these words (R22). -/
theorem map_range_eq_wordsOf {w k v : Nat} {f : Int → Nat} (h : ∀ j : Nat, f j = v / 2 ^ (w * j) % 2 ^ w) :
    (List.range k >>= fun j => pure (j : Int)).map f = wordsOf w k v := by
  rw [bind_pure_comp, List.map_eq_map, List.map_map]
  apply List.ext_getElem
  · simp
  · intro j _ hj
    rw [getElem_wordsOf hj, List.getElem_map, List.getElem_range, Function.comp_apply, h]

/-- The left shifter gives the low words of the product: word `j` starts `n mod W` bits below the word `n div W` places down (R135). -/
theorem barrelLeft_eq {w : Nat} (hw : 0 < w) (n : Nat) {xs : List Nat} (h : ∀ x ∈ xs, x < 2 ^ w) :
    barrelLeft w n xs = wordsOf w xs.length (valueOf w xs * 2 ^ n) := by
  unfold barrelLeft
  refine map_range_eq_wordsOf fun j => ?_
  have hbs : n % w ≤ w := (Nat.mod_lt n hw).le
  have hstart : n + (w - n % w) = w * (n / w + 1) := by
    have hdiv := Nat.div_add_mod n w
    rw [Nat.mul_succ]
    omega
  have hbelow : (j : Int) - (n / w : Nat) - 1 = (j : Int) - (n / w + 1 : Nat) := by omega
  have hupper : valueOf w xs * 2 ^ (w * (n / w + 1)) / 2 ^ (w * j) / 2 ^ w =
      valueOf w xs * 2 ^ (w * (n / w)) / 2 ^ (w * j) := by
    rw [Nat.div_right_comm, Nat.mul_succ, pow_add, ← Nat.mul_assoc, Nat.mul_div_cancel _ (Nat.two_pow_pos w)]
  have hvalue : valueOf w xs * 2 ^ (w * (n / w + 1)) / 2 ^ (w * j) / 2 ^ (w - n % w) =
      valueOf w xs * 2 ^ n / 2 ^ (w * j) := by
    rw [Nat.div_right_comm, ← hstart, pow_add, ← Nat.mul_assoc, Nat.mul_div_cancel _ (Nat.two_pow_pos _)]
  rw [hbelow, wordAt_sub h, wordAt_sub h, ← hvalue, div_two_pow_mod_straddle (Nat.sub_le w _), hupper,
    Nat.sub_sub_self hbs, Nat.add_comm]

/-- The right shifter gives the words of the quotient: word `j` starts `n mod W` bits above the word `n div W` places up (R135). -/
theorem barrelRight_eq {w : Nat} (hw : 0 < w) (n : Nat) {xs : List Nat} (h : ∀ x ∈ xs, x < 2 ^ w) :
    barrelRight w n xs = wordsOf w xs.length (valueOf w xs / 2 ^ n) := by
  unfold barrelRight
  refine map_range_eq_wordsOf fun j => ?_
  have hstart : w * (j + n / w) + n % w = n + w * j := by
    have hdiv := Nat.div_add_mod n w
    rw [Nat.mul_add]
    omega
  have habove : (j : Int) + (n / w : Nat) + 1 = (j : Int) + (n / w + 1 : Nat) := by omega
  have hupper : valueOf w xs / 2 ^ (w * (j + n / w)) / 2 ^ w = valueOf w xs / 2 ^ (w * (j + (n / w + 1))) := by
    rw [Nat.div_div_eq_div_mul, ← pow_add, ← Nat.mul_add_one, Nat.add_assoc]
  have hvalue : valueOf w xs / 2 ^ (w * (j + n / w)) / 2 ^ (n % w) = valueOf w xs / 2 ^ n / 2 ^ (w * j) := by
    rw [Nat.div_div_eq_div_mul, ← pow_add, hstart, pow_add, Nat.div_div_eq_div_mul]
  rw [habove, wordAt_add h, wordAt_add h, ← hvalue, div_two_pow_mod_straddle (Nat.mod_lt n hw).le, hupper]

/-- Settles O28: the words are those of the product and of the quotient, and the quotient has no more words than the value. -/
theorem barrelShifterShifts : Obligations.BarrelShifterShifts := by
  intro w n xs hw h
  have hlt : valueOf w xs / 2 ^ n < 2 ^ (w * xs.length) := (Nat.div_le_self _ _).trans_lt (valueOf_lt h)
  rw [barrelLeft_eq hw n h, barrelRight_eq hw n h, valueOf_wordsOf, valueOf_wordsOf, Nat.mod_eq_of_lt hlt]
  exact ⟨rfl, rfl⟩

end Sys2Proof.Machine
end

section
/-!
PROOFS. The multiplicative family (R140 to R146): MUL and the division commands by value, then the schoolbook multiplier and the long divider, which compute the same
values.
-/

namespace Sys2Proof.Machine

/-! ### Commands with several destinations -/

/-- A command whose completion only writes registers: what its result statement needs. Unless it is aliased, each destination holds a value given for it (R24). -/
theorem exec_writes_of {i : Instr} {s : State} {u : Bool} {writes : List (RegIdx × Nat)} (hc : s.cfg.Wf)
    (h : completionOf i s = .success { uf := u, regs := writes }) :
    ∃ t, exec i s = .next t ∧ Succeeded i u s t ∧ t.res = s.res ∧ SameStrbuf s t ∧
      (aliased i = false → ∀ r ∈ destinations i, ∃ v, (r, v) ∈ writes ∧ Holds t r (v % s.cfg.modulus)) := by
  refine ⟨s.conclude i (.success { uf := u, regs := writes }), h ▸ exec_eq i s, State.conclude_succeeded h, rfl, ?_, ?_⟩
  · intro j
    simp [State.conclude_success, Memory.writeAll]
  · intro ha r hr
    obtain ⟨v, hv, hregs⟩ := State.writeRegs_settled_destination (al := false) h hr
    refine ⟨v, hv, ?_⟩
    rw [State.conclude_success, ha]
    have hholds := State.holds_of_regs (v := v)
      (t := (s.succeed false { uf := u, regs := writes }).launch s (encode i) (some (s.snapshot i))) (by simpa using hregs s)
    simpa [Config.modulus, Config.Wf.bits_eq hc] using hholds

/-! ### The division check -/

theorem divisionCompletion_of_zero {b : Nat} (hb : b = 0) (writes : List (RegIdx × Nat)) :
    divisionCompletion b writes = .error .divByZero := if_pos hb

theorem divisionCompletion_of_ne_zero {b : Nat} (hb : b ≠ 0) (writes : List (RegIdx × Nat)) :
    divisionCompletion b writes = .success { regs := writes } := if_neg hb

/-- A quotient of register values is a register value (R142). -/
theorem State.quotient_mod {s : State} (h : s.Inv) (a b : RegIdx) : s.x a / s.x b % s.cfg.modulus = s.x a / s.x b :=
  Nat.mod_eq_of_lt ((Nat.div_le_self _ _).trans_lt (State.x_lt h a))

/-- A remainder of register values is a register value (R142). -/
theorem State.remainder_mod {s : State} (h : s.Inv) (a b : RegIdx) : s.x a % s.x b % s.cfg.modulus = s.x a % s.x b :=
  Nat.mod_eq_of_lt ((Nat.mod_le _ _).trans_lt (State.x_lt h a))

/-! ### Aliasing of DIVMOD -/

/-- All five coincidences of DIVMOD's registers that involve a destination (R80, R142). -/
theorem aliased_divmod_iff (d e a b : RegIdx) :
    aliased (.divmod d e a b) = true ↔ d = e ∨ d = a ∨ d = b ∨ e = a ∨ e = b := by
  rw [aliased, Bool.or_eq_true, beq_iff_eq, or_comm]
  simp [destinationIsSource_iff, destinations, sources, or_assoc]

/-! ### The obligations on commands -/

/-- Settles O29: MUL is one register write of the product, already reduced. -/
theorem mulIsProductModM : Obligations.MulIsProductModM := fun s d a b hc =>
  ⟨writesRegister_of hc rfl (Nat.mod_mod (s.x a * s.x b) s.cfg.modulus), destinationIsSource_pair_iff rfl rfl,
    packWord_toNat 2 d a b 0⟩

/-- Settles O31: quotient and remainder fit their registers, which are different ones unless the command is aliased. -/
theorem divmodQuotientRemainder : Obligations.DivmodQuotientRemainder := by
  intro s d e a b h
  refine ⟨fun hb => failsWith_of (divisionCompletion_of_zero hb _), fun hb => ?_, aliased_divmod_iff d e a b,
    packWord_toNat 12 d a b e⟩
  obtain ⟨t, ht, hok, hres, hbuf, hholds⟩ :=
    exec_writes_of (i := .divmod d e a b) h.1 (divisionCompletion_of_ne_zero hb _)
  refine ⟨t, ht, hok, hres, hbuf, fun ha => ?_⟩
  have hde : d ≠ e := fun hde => by simp [(aliased_divmod_iff d e a b).2 (.inl hde)] at ha
  have hq : Holds t d (s.x a / s.x b) := by
    obtain ⟨v, hv, hd⟩ := hholds ha d (by simp [destinations])
    obtain rfl : v = s.x a / s.x b := by simpa [hde] using hv
    rwa [State.quotient_mod h] at hd
  have hr : Holds t e (s.x a % s.x b) := by
    obtain ⟨v, hv, he⟩ := hholds ha e (by simp [destinations])
    obtain rfl : v = s.x a % s.x b := by simpa [hde.symm] using hv
    rwa [State.remainder_mod h] at he
  refine ⟨hq, hr, ?_, ?_⟩
  · rw [hq.2, hr.2, Nat.div_add_mod']
  · rw [hr.2]
    exact Nat.mod_lt _ (Nat.pos_of_ne_zero hb)

/-- Settles O32: DIV and MOD share DIVMOD's check and each writes one of its two values. -/
theorem divAndModOutputs : Obligations.DivAndModOutputs := fun _ d a b h =>
  ⟨fun hb => ⟨failsWith_of (divisionCompletion_of_zero hb _), failsWith_of (divisionCompletion_of_zero hb _)⟩,
    fun hb => ⟨writesRegister_of h.1 (divisionCompletion_of_ne_zero hb _) (State.quotient_mod h a b),
      writesRegister_of h.1 (divisionCompletion_of_ne_zero hb _) (State.remainder_mod h a b)⟩,
    destinationIsSource_pair_iff rfl rfl, destinationIsSource_pair_iff rfl rfl, packWord_toNat 3 d a b 0,
    packWord_toNat 8 d a b 0⟩

/-! ### The schoolbook multiplier -/

/-- One product of the inner loop: at offset K or above it is a multiple of M, so dropping it adds nothing (R141). -/
theorem accumulate_mod (w k o p acc : Nat) :
    (if o < k then (acc % 2 ^ (w * k) + p * 2 ^ (w * o)) % 2 ^ (w * k) else acc % 2 ^ (w * k)) =
      (acc + p * 2 ^ (w * o)) % 2 ^ (w * k) := by
  split_ifs with ho
  · exact Nat.mod_add_mod _ _ _
  · have hdvd : 2 ^ (w * k) ∣ p * 2 ^ (w * o) :=
      dvd_mul_of_dvd_right (pow_dvd_pow 2 (Nat.mul_le_mul_left w (Nat.le_of_not_lt ho))) p
    rw [Nat.add_mod, Nat.mod_eq_zero_of_dvd hdvd, Nat.add_zero, Nat.mod_mod]

/-- The inner loop adds the word times the value of the words left, at their offset (R141). -/
theorem mulRow_eq (w k i x j : Nat) (ys : List Nat) (acc : Nat) :
    mulRow w k i x j ys (acc % 2 ^ (w * k)) = (acc + x * valueOf w ys * 2 ^ (w * (i + j))) % 2 ^ (w * k) := by
  induction ys generalizing j acc with
  | nil => simp [mulRow]
  | cons y ys ih =>
    rw [mulRow, accumulate_mod, ih, valueOf_cons, ← Nat.add_assoc i, two_pow_mul_succ]
    congr 1
    ring

/-- The outer loop adds the product of the values, at the offset of the words left (R141). -/
theorem schoolbookMul_eq (w k : Nat) (ys : List Nat) (i : Nat) (xs : List Nat) (acc : Nat) :
    schoolbookMul w k ys i xs (acc % 2 ^ (w * k)) =
      (acc + valueOf w xs * valueOf w ys * 2 ^ (w * i)) % 2 ^ (w * k) := by
  induction xs generalizing i acc with
  | nil => simp [schoolbookMul]
  | cons x xs ih =>
    rw [schoolbookMul, mulRow_eq, ih, valueOf_cons, two_pow_mul_succ]
    congr 1
    ring

/-- Settles O30: both loops from word 0 on and an empty accumulator. -/
theorem schoolbookIsProduct : Obligations.SchoolbookIsProduct := by
  intro w xs ys _
  simpa using schoolbookMul_eq w xs.length ys 0 xs 0

/-! ### The long divider -/

/-- The shift found is the largest one: the shifted divisor goes into the rest, one more place up it does not (R143). -/
theorem topShift_spec {b r n : Nat} (hle : b ≤ r) (hlt : r < b * 2 ^ (n + 1)) :
    b * 2 ^ topShift b r n ≤ r ∧ r < b * 2 ^ (topShift b r n + 1) := by
  induction n with
  | zero => exact ⟨by simpa [topShift] using hle, hlt⟩
  | succ n ih =>
    rw [topShift]
    split_ifs with hfits
    · exact ⟨hfits, hlt⟩
    · exact ih (Nat.lt_of_not_le hfits)

/-- The loop keeps the invariant a = b·q + r and, each subtraction lowering the shift, has subtractions enough to end below the divisor (R143). -/
theorem divideLoop_spec {n b fuel r : Nat} (q : Nat) (hn : fuel ≤ n) (hr : r < b * 2 ^ fuel) :
    (divideLoop n b fuel q r).2 + b * (divideLoop n b fuel q r).1 = r + b * q ∧ (divideLoop n b fuel q r).2 < b := by
  induction fuel generalizing q r with
  | zero => exact ⟨rfl, by simpa [divideLoop] using hr⟩
  | succ fuel ih =>
    rw [divideLoop]
    split_ifs with hend
    · exact ⟨rfl, hend⟩
    · have hbound : r < b * 2 ^ (n + 1) :=
        hr.trans_le (Nat.mul_le_mul_left b (Nat.pow_le_pow_right Nat.two_pos (by omega)))
      obtain ⟨hfits, hnext⟩ := topShift_spec (Nat.le_of_not_lt hend) hbound
      generalize topShift b r n = s at hfits hnext ⊢
      have hs : s < fuel + 1 :=
        (Nat.pow_lt_pow_iff_right Nat.one_lt_two).1 (Nat.lt_of_mul_lt_mul_left (hfits.trans_lt hr))
      have hrest : r - b * 2 ^ s < b * 2 ^ fuel :=
        calc r - b * 2 ^ s < b * 2 ^ s := by rw [pow_succ, ← Nat.mul_assoc] at hnext; omega
          _ ≤ b * 2 ^ fuel := Nat.mul_le_mul_left b (Nat.pow_le_pow_right Nat.two_pos (Nat.le_of_lt_succ hs))
      obtain ⟨hsum, hend'⟩ := ih (q + 2 ^ s) (by omega) hrest
      refine ⟨hsum.trans ?_, hend'⟩
      rw [Nat.mul_add]
      omega

/-- Settles O33: below the divisor, the rest of a = b·q + r is the remainder and q the quotient. -/
theorem longDivisionDivides : Obligations.LongDivisionDivides := by
  intro n a b ha hb
  have hpos : 0 < b := Nat.pos_of_ne_zero hb
  obtain ⟨hsum, hrest⟩ := divideLoop_spec 0 le_rfl (ha.trans_le (Nat.le_mul_of_pos_left (2 ^ n) hpos))
  obtain ⟨hquotient, hremainder⟩ := (Nat.div_mod_unique hpos).2 ⟨hsum, hrest⟩
  exact Prod.ext hquotient.symm hremainder.symm

end Sys2Proof.Machine
end

section
/-!
PROOFS. The advanced operations (R150 to R153): square-and-multiply is the power modulo M, and the bisection is the floor of the square root.
-/

namespace Sys2Proof.Machine

/-! ### Square-and-multiply -/

/-- One bit of the exponent: the accumulator takes the base when the bit is set (R151). -/
theorem multiplyStep_modEq (m r base b : Nat) :
    (if b % 2 = 1 then r * base % m else r) ≡ r * base ^ (b % 2) [MOD m] := by
  split_ifs with hbit
  · rw [hbit, pow_one]
    exact Nat.mod_modEq _ _
  · rw [Nat.mod_two_ne_one.1 hbit, pow_zero, mul_one]

/-- The loop keeps `r * base ^ b` modulo M, and ends with the exponent used up (R151). -/
theorem powLoop_modEq {m n b : Nat} (base r : Nat) (hb : b < 2 ^ n) : powLoop m n base b r ≡ r * base ^ b [MOD m] := by
  induction n generalizing base b r with
  | zero =>
    obtain rfl : b = 0 := by simpa using hb
    rw [powLoop, pow_zero, mul_one]
  | succ n ih =>
    have hhalf : b / 2 < 2 ^ n := by omega
    have hsquare : (base * base % m) ^ (b / 2) ≡ (base * base) ^ (b / 2) [MOD m] := (Nat.mod_modEq _ _).pow _
    rw [powLoop]
    calc
      _ ≡ (if b % 2 = 1 then r * base % m else r) * (base * base % m) ^ (b / 2) [MOD m] := ih _ _ hhalf
      _ ≡ r * base ^ (b % 2) * (base * base) ^ (b / 2) [MOD m] := (multiplyStep_modEq m r base b).mul hsquare
      _ = r * base ^ b := by rw [← pow_two, ← pow_mul, mul_assoc, ← pow_add, Nat.mod_add_div]

/-- All bits of the exponent are used (R150). -/
theorem squareMultiply_modEq {m n b : Nat} (a : Nat) (hb : b < 2 ^ n) : squareMultiply m n a b ≡ a ^ b [MOD m] := by
  simpa [squareMultiply] using powLoop_modEq a 1 hb

/-- Settles O34: the exponent has at most N bits under the invariant, and the write reduces the power modulo M. -/
theorem powIsPowerModM : Obligations.PowIsPowerModM := fun s d a b h =>
  ⟨writesRegister_of h.1 rfl (squareMultiply_modEq (s.x a) (State.x_lt_pow h b)), destinationIsSource_pair_iff rfl rfl,
    packWord_toNat 7 d a b 0⟩

/-! ### Bisection -/

/-- The search keeps the root in [lo, hi] and halves the range, so 2^fuel candidates need `fuel` steps (R153). -/
theorem rootSearch_eq_sqrt {a fuel lo hi : Nat} (hlo : lo ≤ Nat.sqrt a) (hhi : Nat.sqrt a ≤ hi)
    (hrange : hi < lo + 2 ^ fuel) : rootSearch a fuel lo hi = Nat.sqrt a := by
  induction fuel generalizing lo hi with
  | zero =>
    rw [rootSearch]
    omega
  | succ fuel ih =>
    rw [rootSearch]
    split_ifs with hlt hsquare
    · exact ih (Nat.le_sqrt.2 hsquare) hhi (by omega)
    · have hroot : Nat.sqrt a < (lo + hi + 1) / 2 := Nat.sqrt_lt.2 (Nat.lt_of_not_le hsquare)
      exact ih hlo (Nat.le_sub_one_of_lt hroot) (by omega)
    · omega

/-- For a number of `n` bits, `n` even, the root has at most n/2 bits and the search finds it (R152). -/
theorem bisectRoot_eq_sqrt {n a : Nat} (hn : Even n) (ha : a < 2 ^ n) : bisectRoot n a = Nat.sqrt a := by
  have hroot : Nat.sqrt a < 2 ^ (n / 2) := by
    rw [Nat.sqrt_lt', ← pow_mul, Nat.div_mul_cancel hn.two_dvd]
    exact ha
  exact rootSearch_eq_sqrt (Nat.zero_le _) (Nat.le_sub_one_of_lt hroot) (by omega)

/-- A number of bits R7 allows is even. -/
theorem Config.Wf.even_totalBits {c : Config} (h : c.Wf) : Even c.totalBits := by
  rw [Nat.even_iff, ← Nat.mod_mod_of_dvd _ (by decide : 2 ∣ 8), (Config.Wf.eight_le h).2]

/-- Settles O35: the datapath's root is `Nat.sqrt`, which is the largest such number and no larger than x[A]. -/
theorem isqrtIsFloorRoot : Obligations.IsqrtIsFloorRoot := by
  intro s d a h
  have hval : bisectRoot s.cfg.totalBits (s.x a) % s.cfg.modulus = Nat.sqrt (s.x a) := by
    rw [bisectRoot_eq_sqrt (Config.Wf.even_totalBits h.1) (State.x_lt_pow h a)]
    exact Nat.mod_eq_of_lt ((Nat.sqrt_le_self _).trans_lt (State.x_lt h a))
  exact ⟨⟨Nat.sqrt (s.x a), writesRegister_of h.1 rfl hval, Nat.sqrt_le _, fun _ => Nat.le_sqrt.2⟩,
    destinationIsSource_single_iff rfl rfl, packWord_toNat 11 d a 0 0⟩

end Sys2Proof.Machine
end

section
/-!
PROOFS. The conversion layer (R160 to R163): the digit characters, the digits of a value, TOSTR and FROMSTR, and that FROMSTR of TOSTR gives the value back.
-/

namespace Sys2Proof.Machine

/-! ### The base-16 characters -/

theorem digitCode_toNat {d : Nat} (h : d < 16) : (digitCode d).toNat = if d ≤ 9 then 0x30 + d else 0x57 + d := by
  rw [digitCode, BitVec.toNat_ofNat, Nat.mod_eq_of_lt (by split_ifs <;> omega)]

/-- The block reads its own output characters back (R160). -/
theorem digitValue_digitCode {d : Nat} (h : d < 16) : digitValue (digitCode d) = some d := by
  rw [digitValue, digitCode_toNat h]
  obtain hd | hd := Nat.lt_or_ge 9 d
  · rw [if_neg (Nat.not_le.2 hd), if_neg (by omega), if_pos (by omega), Nat.add_sub_cancel_left]
  · rw [if_pos hd, if_pos (by omega), Nat.add_sub_cancel_left]

theorem digitValue_lt {c : Byte} {d : Nat} (h : digitValue c = some d) : d < 16 := by
  unfold digitValue at h
  split_ifs at h <;> (injection h with h; omega)

/-- Settles O36: the two letter ranges start at 10, and the output characters lie in the ranges of digits. -/
theorem digitTable : Obligations.DigitTable := by
  refine ⟨fun c => ?_, fun d => ⟨digitCode_toNat d.isLt, digitValue_digitCode d.isLt⟩⟩
  have hlower (h : 0x61 ≤ c.toNat ∧ c.toNat ≤ 0x66) : c.toNat - 0x57 = c.toNat - 0x61 + 10 := by omega
  have hupper (h : 0x41 ≤ c.toNat ∧ c.toNat ≤ 0x46) : c.toNat - 0x37 = c.toNat - 0x41 + 10 := by omega
  unfold digitValue
  split_ifs with hdigit hl hu
  · rfl
  · rw [hlower hl]
  · rw [hupper hu]
  · rfl

/-! ### The digits of a value -/

theorem hexDigitsUp_succ (n v : Nat) :
    hexDigitsUp (n + 1) v = v % 16 :: if v / 16 = 0 then [] else hexDigitsUp n (v / 16) := rfl

/-- "0" for 0 (R161). -/
theorem hexDigits_zero {n : Nat} (hn : 0 < n) : hexDigits n 0 = [0] := by
  obtain ⟨m, rfl⟩ := Nat.exists_eq_add_one.2 hn
  rfl

/-- A value other than 0 that fits has the digits of the library, most significant first (R161). -/
theorem hexDigits_of_ne_zero {n v : Nat} (hv : v ≠ 0) (h : v < 16 ^ n) : hexDigits n v = (Nat.digits 16 v).reverse := by
  rw [hexDigits]
  congr 1
  induction n generalizing v with
  | zero => omega
  | succ n ih =>
    rw [hexDigitsUp_succ, Nat.digits_def' (by decide) (Nat.pos_of_ne_zero hv)]
    split_ifs with hq
    · rw [hq, Nat.digits_zero]
    · rw [ih hq (by omega)]

section Digits

variable {n v : Nat}

/-- Each digit is below 16 (R161). -/
theorem hexDigits_lt (hn : 0 < n) (h : v < 16 ^ n) : ∀ d ∈ hexDigits n v, d < 16 := by
  obtain rfl | hv := eq_or_ne v 0
  · simp [hexDigits_zero hn]
  · rw [hexDigits_of_ne_zero hv h]
    exact fun d hd => Nat.digits_lt_base (by decide) (List.mem_reverse.1 hd)

/-- No leading zeros (R161). -/
theorem head?_hexDigits_ne_zero (hv : v ≠ 0) (h : v < 16 ^ n) : (hexDigits n v).head? ≠ some 0 := by
  rw [hexDigits_of_ne_zero hv h, List.head?_reverse, List.getLast?_eq_getLast_of_ne_nil (Nat.digits_ne_nil_iff_ne_zero.2 hv)]
  exact fun h0 => Nat.getLast_digit_ne_zero 16 hv (Option.some.inj h0)

/-- The digits are those of the value (R161). -/
theorem foldl_hexDigits (hn : 0 < n) (h : v < 16 ^ n) : (hexDigits n v).foldl (fun v d => 16 * v + d) 0 = v := by
  obtain rfl | hv := eq_or_ne v 0
  · simp [hexDigits_zero hn]
  · have hdigits := Nat.ofDigits_digits 16 v
    rw [Nat.ofDigits_eq_foldr] at hdigits
    rw [hexDigits_of_ne_zero hv h, List.foldl_reverse]
    simpa only [Nat.cast_id, Nat.add_comm] using hdigits

/-- A value has at least one digit, and no more than it fits in (R161). -/
theorem length_hexDigits (hn : 0 < n) (h : v < 16 ^ n) : 1 ≤ (hexDigits n v).length ∧ (hexDigits n v).length ≤ n := by
  obtain rfl | hv := eq_or_ne v 0
  · rw [hexDigits_zero hn]
    exact ⟨le_rfl, hn⟩
  · rw [hexDigits_of_ne_zero hv h, List.length_reverse, Nat.digits_length_le_iff (by decide)]
    exact ⟨List.length_pos_of_ne_nil (Nat.digits_ne_nil_iff_ne_zero.2 hv), h⟩

end Digits

/-- N/4 digits are N bits (R7). -/
theorem Config.Wf.modulus_eq {c : Config} (h : c.Wf) : c.modulus = 16 ^ c.maxDigits := by
  obtain ⟨-, h8⟩ := Config.Wf.eight_le h
  have h4 : c.totalBits = 4 * c.maxDigits := by
    unfold Config.maxDigits
    omega
  rw [Config.modulus, h4, pow_mul]
  rfl

theorem Config.Wf.maxDigits_pos {c : Config} (h : c.Wf) : 0 < c.maxDigits := by
  obtain ⟨h8, -⟩ := Config.Wf.eight_le h
  unfold Config.maxDigits
  omega

/-! ### TOSTR -/

section Tostr

variable {c : Config} {a cap : Nat}

theorem tostrCompletion_badLength (h : c.strbufBytes < cap) : tostrCompletion c a cap = .error .badLength := if_pos h

theorem tostrCompletion_bufTooSmall (hb : cap ≤ c.strbufBytes) (h : cap < (hexDigits c.maxDigits a).length + 1) :
    tostrCompletion c a cap = .error .bufTooSmall := by
  rw [tostrCompletion, if_neg (Nat.not_lt.2 hb), if_pos h]

theorem tostrCompletion_renders (hb : cap ≤ c.strbufBytes) (h : (hexDigits c.maxDigits a).length + 1 ≤ cap) :
    tostrCompletion c a cap = .success
      { res := some (BitVec.ofNat 64 (hexDigits c.maxDigits a).length)
        text := (hexDigits c.maxDigits a).map digitCode ++ [0] } := by
  rw [tostrCompletion, if_neg (Nat.not_lt.2 hb), if_neg (Nat.not_lt.2 h)]

end Tostr

/-- A command whose completion is a count for RES and that many characters with a terminator for STRBUF: what its result statement needs. -/
theorem writesText_of {i : Instr} {s : State} {text : List Byte} (hlen : text.length < 2 ^ 64)
    (h : completionOf i s = .success { res := some (BitVec.ofNat 64 text.length), text := text ++ [0] }) :
    ∃ t, exec i s = .next t ∧ Succeeded i false s t ∧ t.res.toNat = text.length ∧
      (∀ (j : Nat) (hj : j < text.length), Memory.read? t.strbuf j = some text[j]) ∧
      Memory.read? t.strbuf text.length = some 0 ∧
      ∀ j, text.length < j → Memory.read? t.strbuf j = Memory.read? s.strbuf j := by
  refine ⟨_, h ▸ exec_eq i s, State.conclude_succeeded h, ?_, fun j hj => ?_, ?_, fun j hj => ?_⟩
  · exact (BitVec.toNat_ofNat text.length 64).trans (Nat.mod_eq_of_lt hlen)
  · rw [State.conclude_read_text s i (by simp; omega)]
    simp [hj]
  · rw [State.conclude_read_text s i (by simp)]
    simp
  · rw [State.conclude_success, State.launch_strbuf, State.succeed_strbuf, Memory.read_writeAll_outside]
    exact .inr (by simp; omega)

/-- Settles O37: the digits are those of `hexDigits`, which the N/4 digits R7 allows hold under the invariant. -/
theorem tostrRenders : Obligations.TostrRenders := by
  intro s a h
  have hn : 0 < s.cfg.maxDigits := Config.Wf.maxDigits_pos h.1
  have hx : s.x a < 16 ^ s.cfg.maxDigits := Config.Wf.modulus_eq h.1 ▸ State.x_lt h a
  obtain ⟨hpos, hmax⟩ := length_hexDigits hn hx
  refine ⟨packWord_toNat 21 0 a 0 0, hexDigits s.cfg.maxDigits (s.x a), hexDigits_lt hn hx, foldl_hexDigits hn hx,
    fun h0 => h0 ▸ hexDigits_zero hn, fun h0 => head?_hexDigits_ne_zero h0 hx, hpos, hmax,
    fun hb => failsWith_of (tostrCompletion_badLength hb), fun hb hl => failsWith_of (tostrCompletion_bufTooSmall hb hl),
    fun hb hl => ?_⟩
  have hcompletion := tostrCompletion_renders hb hl
  rw [← List.length_map (f := digitCode)] at hcompletion
  have hlen : ((hexDigits s.cfg.maxDigits (s.x a)).map digitCode).length < 2 ^ 64 := by
    have harg := s.arg.isLt
    rw [List.length_map]
    omega
  simpa using writesText_of (i := .tostr a) hlen hcompletion

/-! ### FROMSTR -/

/-- The parse fails exactly at a byte that is not a digit (R162). -/
theorem parseDigits_eq_none_iff {bytes : List Byte} {v : Nat} :
    parseDigits bytes v = none ↔ ∃ c ∈ bytes, digitValue c = none := by
  induction bytes generalizing v with
  | nil => simp [parseDigits]
  | cons c rest ih => cases hc : digitValue c <;> simp [parseDigits, hc, ih]

/-- Bytes that are all digits parse to their value, after the digits read so far (R162). -/
theorem parseDigits_of_digits {bytes : List Byte} (h : ∀ c ∈ bytes, digitValue c ≠ none) (v : Nat) :
    parseDigits bytes v = some (bytes.foldl (fun v c => 16 * v + (digitValue c).getD 0) v) := by
  induction bytes generalizing v with
  | nil => rfl
  | cons c rest ih =>
    obtain ⟨hc, hrest⟩ := List.forall_mem_cons.1 h
    obtain ⟨d, hd⟩ := Option.ne_none_iff_exists'.1 hc
    simp [parseDigits, hd, ih hrest]

/-- The parse reads rendered digits back (R163). -/
theorem parseDigits_map_digitCode {ds : List Nat} (h : ∀ d ∈ ds, d < 16) (v : Nat) :
    parseDigits (ds.map digitCode) v = some (ds.foldl (fun v d => 16 * v + d) v) := by
  induction ds generalizing v with
  | nil => rfl
  | cons d ds ih =>
    obtain ⟨hd, hds⟩ := List.forall_mem_cons.1 h
    simp [parseDigits, digitValue_digitCode hd, ih hds]

/-- L digits after the value `v` stay below (v + 1)·16^L (R162). -/
theorem parseDigits_lt {bytes : List Byte} {v u : Nat} (h : parseDigits bytes v = some u) :
    u < (v + 1) * 16 ^ bytes.length := by
  induction bytes generalizing v with
  | nil =>
    obtain rfl := Option.some.inj h
    simp
  | cons c rest ih =>
    rw [parseDigits] at h
    split at h
    · cases h
    · next d hd =>
      have hdlt : d < 16 := digitValue_lt hd
      calc u < (16 * v + d + 1) * 16 ^ rest.length := ih h
        _ ≤ (v + 1) * 16 * 16 ^ rest.length := Nat.mul_le_mul_right _ (by omega)
        _ = (v + 1) * 16 ^ (rest.length + 1) := by ring

section Fromstr

variable {s : State} {d : RegIdx}

@[simp] theorem State.length_strBytes (s : State) (len : Nat) : (s.strBytes len).length = len := by
  simp [State.strBytes]

@[simp] theorem State.mem_strBytes {len : Nat} {c : Byte} : c ∈ s.strBytes len ↔ ∃ j < len, s.strByte j = c := by
  simp [State.strBytes]

/-- Written bytes read as what was written (R11). -/
theorem State.strBytes_of_read {bytes : List Byte}
    (h : ∀ (j : Nat) (hj : j < bytes.length), Memory.read? s.strbuf j = some bytes[j]) : s.strBytes bytes.length = bytes := by
  apply List.ext_getElem (by simp)
  intro j _ hj
  simp [State.strBytes, State.strByte, h j hj]

theorem fromstrCompletion_badLength {c : Config} {len : Nat} {bytes : List Byte} (h : c.strbufBytes < len) :
    fromstrCompletion c d len bytes = .error .badLength := if_pos h

theorem fromstrCompletion_strTooLong {c : Config} {len : Nat} {bytes : List Byte} (hb : len ≤ c.strbufBytes)
    (h : c.maxDigits < len) : fromstrCompletion c d len bytes = .error .strTooLong := by
  rw [fromstrCompletion, if_neg (Nat.not_lt.2 hb), if_pos h]

/-- A length that passes the second check passes the first, and FROMSTR ends as its parse does (R162). -/
theorem completionOf_fromstr (hc : s.cfg.Wf) (h : s.arg.toNat ≤ s.cfg.maxDigits) :
    completionOf (.fromstr d) s = (parseDigits (s.strBytes s.arg.toNat) 0).elim (.error .badDigit)
      fun v => .success { regs := [(d, v)] } := by
  obtain ⟨-, -, ⟨hdigits, -⟩, -⟩ := hc
  have hb : s.arg.toNat ≤ s.cfg.strbufBytes := by omega
  have hlen : s.parseLength = s.arg.toNat := if_pos ⟨hb, h⟩
  rw [completionOf, fromstrCompletion, State.argNat, if_neg (Nat.not_lt.2 hb), if_neg (Nat.not_lt.2 h), hlen]
  cases parseDigits (s.strBytes s.arg.toNat) 0 <;> rfl

theorem fromstr_badDigit (hc : s.cfg.Wf) (h : s.arg.toNat ≤ s.cfg.maxDigits)
    (hp : parseDigits (s.strBytes s.arg.toNat) 0 = none) : FailsWith (.fromstr d) .badDigit s :=
  failsWith_of (by rw [completionOf_fromstr hc h, hp]; rfl)

/-- A parsed value has at most N bits, so the write keeps it (R162). -/
theorem fromstr_writesRegister {v : Nat} (hc : s.cfg.Wf) (h : s.arg.toNat ≤ s.cfg.maxDigits)
    (hp : parseDigits (s.strBytes s.arg.toNat) 0 = some v) : WritesRegister (.fromstr d) false d v s := by
  have hcompletion : completionOf (.fromstr d) s = .success { regs := [(d, v)] } := by
    rw [completionOf_fromstr hc h, hp]
    rfl
  have hv : v < s.cfg.modulus :=
    calc v < 16 ^ s.arg.toNat := by simpa using parseDigits_lt hp
      _ ≤ 16 ^ s.cfg.maxDigits := Nat.pow_le_pow_right (by decide) h
      _ = s.cfg.modulus := (Config.Wf.modulus_eq hc).symm
  exact writesRegister_of hc hcompletion (Nat.mod_eq_of_lt hv)

end Fromstr

/-- Settles O38: the checks in order, and then the parse of the bytes below ARG. -/
theorem fromstrParses : Obligations.FromstrParses := by
  intro s d h
  refine ⟨packWord_toNat 22 d 0 0 0, rfl, fun hb => failsWith_of (fromstrCompletion_badLength hb),
    fun hb hl => failsWith_of (fromstrCompletion_strTooLong hb hl), fun hl => ⟨fun hbad => ?_, fun hgood => ?_⟩⟩
  · exact fromstr_badDigit h.1 hl (parseDigits_eq_none_iff.2 (by simpa using hbad))
  · have hparse := parseDigits_of_digits (bytes := s.strBytes s.arg.toNat) (by simpa using hgood) 0
    rw [State.strBytes, List.foldl_map] at hparse
    exact fromstr_writesRegister h.1 hl hparse

/-! ### The round trip -/

/-- Settles O39: after TOSTR the first RES bytes of STRBUF are the rendered digits, which FROMSTR parses back. -/
theorem stringRoundTrip : Obligations.StringRoundTrip := by
  intro s a d h hcap hbuf
  obtain ⟨-, ds, hdigit, hvalue, -, -, -, hlen, -, -, hrenders⟩ := tostrRenders s a h
  obtain ⟨t, ht, ⟨-, herr, -, -, hcfg, -⟩, hres, htext, -, -⟩ := hrenders hbuf (by omega)
  refine ⟨t, ht, herr, hres ▸ hlen, ?_⟩
  have hbytes : ({ t.finish with arg := t.res } : State).strBytes t.res.toNat = ds.map digitCode := by
    rw [hres, ← List.length_map (f := digitCode)]
    exact State.strBytes_of_read fun j hj => by simpa using htext j (by simpa using hj)
  have hparse := parseDigits_map_digitCode hdigit 0
  rw [← hbytes, hvalue] at hparse
  obtain ⟨u, hu, ⟨-, huerr, -⟩, -, -, hholds⟩ :=
    fromstr_writesRegister (s := { t.finish with arg := t.res }) (d := d) (hcfg ▸ h.1) (hcfg ▸ hres ▸ hlen) hparse
  exact ⟨u, hu, huerr, hholds rfl⟩

end Sys2Proof.Machine
end

section
/-!
PROOFS. Hazards, idleness and reset (R188, R200 to R206): which accesses BUSY = 1 forbids, what an access outside the window does, and the reset state.
-/

namespace Sys2Proof.Machine

/-! ### The busy hazard -/

/-- The slots that may be read while BUSY = 1, by their offsets (R35, R204). -/
theorem slotAt_readableWhileBusy_iff {off : Nat} (h4 : off % 4 = 0) :
    (slotAt off).readableWhileBusy = true ↔ off = 0x4 ∨ off = 0x18 ∨ off = 0x1C := by
  obtain hlt | hge := Nat.lt_or_ge off 0x20
  · interval_cases off <;> simp_all [slotAt, controlSlot, Slot.readableWhileBusy]
  · refine iff_of_false ?_ (by omega)
    unfold slotAt
    rw [if_neg (Nat.not_lt.2 hge)]
    split_ifs <;> exact Bool.false_ne_true

/-- A read R204 allows is answered. -/
theorem readSlot_of_allowed {s : State} {slot : Slot} (h : s.busy = false ∨ slot.readableWhileBusy = true) :
    ∃ t, readSlot slot s = .next t := by
  rcases h with hi | hr
  · exact ⟨_, readSlot_of_idle hi slot⟩
  · obtain rfl | hs := eq_or_ne slot .status
    · exact ⟨_, readSlot_status s⟩
    · exact ⟨_, readSlot_of_readable hr hs⟩

/-- A read faults as a hazard exactly where R204 does not allow it. -/
theorem readSlot_hazard_iff {s : State} {slot : Slot} :
    readSlot slot s = .fault .busyHazard ↔ s.busy = true ∧ ¬slot.readableWhileBusy = true := by
  cases hbusy : s.busy with
  | false => simp [readSlot_of_idle hbusy]
  | true =>
    cases hr : slot.readableWhileBusy with
    | false => simp [readSlot, hbusy, hr]
    | true =>
      obtain ⟨t, ht⟩ := readSlot_of_allowed (s := s) (.inr hr)
      simp [ht]

/-- While BUSY = 1 every write is a hazard, one to CMD included (R206). -/
theorem writeSlot_of_busy {s : State} (hbusy : s.busy = true) (slot : Slot) (v : HostWord) :
    writeSlot slot v s = .fault .busyHazard := if_pos hbusy

/-- A CMD write is answered with a next state (R77). -/
theorem cmdWrite_next (w : HostWord) (s : State) : ∃ t, cmdWrite w s = .next t := by
  cases hd : decode w with
  | none => exact ⟨s.concludeIllegal w, by simp [cmdWrite, hd]⟩
  | some i => exact ⟨_, (cmdWrite_of_legal hd s).trans (exec_eq i s)⟩

/-- While BUSY = 0 every write is answered (R58). -/
theorem writeSlot_next_of_idle {s : State} (hi : s.busy = false) (slot : Slot) (v : HostWord) :
    ∃ t, writeSlot slot v s = .next t := by
  obtain rfl | hs := eq_or_ne slot .cmd
  · obtain ⟨t, ht⟩ := cmdWrite_next v s
    exact ⟨t, (writeSlot_cmd_of_idle hi v).trans ht⟩
  · exact ⟨_, writeSlot_of_idle hi hs v⟩

/-- A write faults as a hazard exactly while BUSY = 1 (R204, R206). -/
theorem writeSlot_hazard_iff {s : State} {slot : Slot} {v : HostWord} :
    writeSlot slot v s = .fault .busyHazard ↔ s.busy = true := by
  cases hbusy : s.busy with
  | false =>
    obtain ⟨t, ht⟩ := writeSlot_next_of_idle hbusy slot v
    simp [ht]
  | true => simp [writeSlot_of_busy hbusy]

/-- Settles O54: a defined access is the read or write of its slot. -/
theorem busyHazardFaults : Obligations.BusyHazardFaults := by
  intro s rest off v hc ho h4
  refine ⟨fun hb => ?_, fun hb => ?_⟩
  · rw [step_read hc ho h4 hb, ← slotAt_readableWhileBusy_iff h4]
    exact ⟨readSlot_hazard_iff (s := { s with bus := rest }), readSlot_of_allowed (s := { s with bus := rest })⟩
  · rw [step_write hc ho h4 hb]
    exact ⟨writeSlot_hazard_iff (s := { s with bus := rest }), fun hi => writeSlot_next_of_idle (s := { s with bus := rest }) hi _ v⟩

/-! ### Idle steps and accesses outside the window -/

/-- A clock cycle does not change an idle block (R188). -/
theorem State.cycle_of_idle {s : State} (h : s.inflight = none) : s.cycle = s := by
  simp only [State.cycle, h]
  rw [← h]

/-- A step that serves an access that does not start in the window (R50, R51). -/
theorem step_outside {s : State} {rest : List HostEvent} {width addr : Nat} {v : HostWord} (hc : s.cfg.Wf)
    (hw : windowOffset s.cfg addr = none) (hb : s.bus = .read width addr :: rest ∨ s.bus = .write width addr v :: rest) :
    step s = accessOutside width addr { s with bus := rest } := by
  rcases hb with hb | hb
  · simp [step, machineStep, if_pos hc, hb, hostEvent, hostRead, hw]
  · simp [step, machineStep, if_pos hc, hb, hostEvent, hostWrite, hw]

theorem windowOffset_eq_none_iff {c : Config} {addr : Nat} :
    windowOffset c addr = none ↔ addr < c.base ∨ c.base + 2 ^ 20 ≤ addr := by
  unfold windowOffset
  split_ifs with hin
  · exact iff_of_false nofun (by omega)
  · exact iff_of_true rfl (by omega)

theorem reachesWindow_iff {c : Config} {width addr : Nat} :
    reachesWindow c width addr = true ↔ addr < c.base ∧ c.base < addr + (width + 7) / 8 := by
  simp [reachesWindow]

/-- Settles O59: an idle clock cycle, and an access that does not start in the window by whether it reaches into it. -/
theorem idleChangesNothing : Obligations.IdleChangesNothing := by
  refine ⟨fun s hc hi hb => ?_, fun s rest width addr v hc hb => ⟨fun hout => ?_, fun hlo hhi => ?_⟩⟩
  · rw [step_of_no_event hc hb, State.cycle_of_idle (State.busy_eq_false_iff.1 hi)]
  · rw [step_outside hc (windowOffset_eq_none_iff.2 (by omega)) hb]
    exact if_neg (mt reachesWindow_iff.1 (by simp only; omega))
  · rw [step_outside hc (windowOffset_eq_none_iff.2 (.inl hlo)) hb]
    exact if_pos (reachesWindow_iff.2 ⟨hlo, hhi⟩)

/-! ### Reset -/

/-- Settles O7: the values `resetWith` gives, and its K unwritten words in every register. -/
theorem resetStateValues : Obligations.ResetStateValues := by
  intro c
  refine ⟨rfl, rfl, rfl, rfl, rfl, rfl, fun r => ?_, fun _ => rfl, rfl, rfl⟩
  rw [State.resetWith_regs_getElem]
  exact ⟨List.length_replicate, fun x hx => by rw [List.eq_of_mem_replicate hx]⟩

/-- Settles O10: a step that serves the reset input is `hardReset`, whatever BUSY is. -/
theorem resetInputResets : Obligations.ResetInputResets := by
  intro s rest hc hb
  simp only [step, machineStep, if_pos hc, hb, hostEvent, State.hardReset]

end Sys2Proof.Machine
end

section
/-!
PROOFS. The errors (R170 to R178, R182): when each command completes with which code, what an error completion leaves, and which steps touch STATUS.ERR and the error log.
-/

namespace Sys2Proof.Machine

/-! ### When each command fails -/

/-- The condition under which the command `i` completes with an error code in `s` (R172, R174 to R178); NONE and ILLEGAL_CMD are no errors of a legal command. -/
def FailsWhen (i : Instr) (s : State) : ErrCode → Prop
  | .noError => False
  | .illegalCmd => False
  | .divByZero => ∃ d e a b, (i = .div d a b ∨ i = .mod d a b ∨ i = .divmod d e a b) ∧ s.x b = 0
  | .badLength => (∃ r, i = .tostr r ∨ i = .fromstr r) ∧ s.cfg.strbufBytes < s.arg.toNat
  | .strTooLong => (∃ d, i = .fromstr d) ∧ s.cfg.maxDigits < s.arg.toNat ∧ s.arg.toNat ≤ s.cfg.strbufBytes
  | .badDigit => (∃ d, i = .fromstr d) ∧ s.arg.toNat ≤ s.cfg.maxDigits ∧ ∃ j < s.arg.toNat, digitValue (s.strByte j) = none
  | .bufTooSmall => (∃ a, i = .tostr a ∧ s.arg.toNat < (hexDigits s.cfg.maxDigits (s.x a)).length + 1) ∧
      s.arg.toNat ≤ s.cfg.strbufBytes

/-- The only error of a division is DIV_BY_ZERO (R174). -/
theorem divisionCompletion_eq_error_iff {b : Nat} {writes : List (RegIdx × Nat)} {code : ErrCode} :
    divisionCompletion b writes = .error code ↔ code = .divByZero ∧ b = 0 := by
  by_cases hb : b = 0
  · rw [divisionCompletion_of_zero hb]
    simp [hb, eq_comm]
  · simp [divisionCompletion_of_ne_zero hb, hb]

/-- TOSTR checks the capacity against STRBUF and then against the text (R172). -/
theorem tostrCompletion_eq_error_iff {c : Config} {a cap : Nat} {code : ErrCode} : tostrCompletion c a cap = .error code ↔
    code = .badLength ∧ c.strbufBytes < cap ∨
    code = .bufTooSmall ∧ cap < (hexDigits c.maxDigits a).length + 1 ∧ cap ≤ c.strbufBytes := by
  obtain hb | hb := Nat.lt_or_ge c.strbufBytes cap
  · simp [tostrCompletion_badLength hb, hb, hb.not_ge, eq_comm]
  obtain hl | hl := Nat.lt_or_ge cap ((hexDigits c.maxDigits a).length + 1)
  · simp [tostrCompletion_bufTooSmall hb hl, hb, hl, hb.not_gt, eq_comm]
  · simp [tostrCompletion_renders hb hl, hb.not_gt, hl.not_gt]

/-- FROMSTR checks the length against STRBUF, then against N/4, and then parses (R172). -/
theorem completionOf_fromstr_eq_error_iff {s : State} {d : RegIdx} {code : ErrCode} (hc : s.cfg.Wf) :
    completionOf (.fromstr d) s = .error code ↔
      code = .badLength ∧ s.cfg.strbufBytes < s.arg.toNat ∨
      code = .strTooLong ∧ s.cfg.maxDigits < s.arg.toNat ∧ s.arg.toNat ≤ s.cfg.strbufBytes ∨
      code = .badDigit ∧ s.arg.toNat ≤ s.cfg.maxDigits ∧ ∃ j < s.arg.toNat, digitValue (s.strByte j) = none := by
  have ⟨_, _, ⟨hdigits, _⟩, _⟩ := hc
  obtain hl | hl := Nat.lt_or_ge s.cfg.maxDigits s.arg.toNat
  · obtain hb | hb := Nat.lt_or_ge s.cfg.strbufBytes s.arg.toNat
    · simp [completionOf, State.argNat, fromstrCompletion_badLength hb, hb, hb.not_ge, hl.not_ge, eq_comm]
    · simp [completionOf, State.argNat, fromstrCompletion_strTooLong hb hl, hb, hb.not_gt, hl, hl.not_ge, eq_comm]
  · have hb : ¬s.cfg.strbufBytes < s.arg.toNat := by omega
    have hparse : parseDigits (s.strBytes s.arg.toNat) 0 = none ↔ ∃ j < s.arg.toNat, digitValue (s.strByte j) = none :=
      parseDigits_eq_none_iff.trans (by simp)
    rw [completionOf_fromstr hc hl, ← hparse]
    cases parseDigits (s.strBytes s.arg.toNat) 0 <;> simp [hb, hl, hl.not_gt, eq_comm]

/-- A command completes with an error code exactly under the condition of that code (R172). -/
theorem completionOf_eq_error_iff {i : Instr} {s : State} {code : ErrCode} (hc : s.cfg.Wf) :
    completionOf i s = .error code ↔ FailsWhen i s code := by
  cases i
  case div | mod | divmod =>
    rw [completionOf, divisionCompletion_eq_error_iff]
    cases code <;> simp [FailsWhen]
  case tostr =>
    rw [completionOf, tostrCompletion_eq_error_iff]
    cases code <;> simp [FailsWhen, State.argNat]
  case fromstr =>
    rw [completionOf_fromstr_eq_error_iff hc]
    cases code <;> simp [FailsWhen]
  all_goals cases code <;> simp [completionOf, FailsWhen]

/-! ### What an error completion leaves -/

/-- The error STATUS holds after a command is the one it completed with (R32, R171). -/
theorem completionOf_of_err {i : Instr} {s t : State} (h : exec i s = .next t) (hne : t.err ≠ .noError) :
    completionOf i s = .error t.err := by
  rcases exec_cases h with ⟨e, -, rfl⟩ | ⟨c, hc, rfl⟩
  · exact absurd (State.succeed_err s (aliased i) e) hne
  · exact hc

theorem exec_err_iff {i : Instr} {s t : State} {code : ErrCode} (h : exec i s = .next t) (hne : code ≠ .noError) :
    t.err = code ↔ completionOf i s = .error code := by
  refine ⟨fun he => he ▸ completionOf_of_err h (he ▸ hne), fun he => ?_⟩
  rw [exec_eq, he] at h
  injection h with h
  exact h ▸ rfl

/-- Settles O42: each code by the condition under which a command completes with it. -/
theorem errorsByCommand : Obligations.ErrorsByCommand := by
  intro i s t hc h
  have herr (code : ErrCode) (hne : code ≠ .noError) : t.err = code ↔ FailsWhen i s code :=
    (exec_err_iff h hne).trans (completionOf_eq_error_iff hc)
  refine ⟨herr .divByZero nofun, herr .badLength nofun, herr .strTooLong nofun, herr .badDigit nofun, fun he => ?_,
    (herr .illegalCmd nofun).1⟩
  obtain ⟨⟨a, ha, -⟩, hb⟩ := (herr .bufTooSmall nofun).1 he
  exact ⟨⟨a, ha⟩, hb⟩

/-- Settles O43: a command that leaves an error completed with it. -/
theorem errorsArePrecise : Obligations.ErrorsArePrecise := by
  intro i s t h hne
  have hcompletion := completionOf_of_err h hne
  rw [exec_eq, hcompletion] at h
  injection h with h
  have hfailed := State.conclude_failed s i t.err
  rwa [h] at hfailed

/-! ### The error log -/

/-- A CMD write logs its word with the code it completes with, if that is an error (R182). -/
theorem cmdWrite_errLog {w : HostWord} {s t : State} (h : cmdWrite w s = .next t) :
    t.errLog = if t.err = .noError then s.errLog else { word := w, code := t.err } :: s.errLog := by
  cases hd : decode w with
  | none =>
    obtain ⟨u, hu, -, herr, hlog, -⟩ := (illegalWordCompletesWithError w).2 s hd
    obtain rfl : u = t := by simpa using hu.symm.trans h
    rw [hlog, herr, if_neg nofun]
  | some i =>
    obtain rfl := encodeInvertsDecode w i hd
    rw [cmdWrite_of_legal hd] at h
    rcases exec_cases h with ⟨e, -, rfl⟩ | ⟨code, hcode, rfl⟩
    · exact (State.succeed_errLog s (aliased i) e).trans (if_pos rfl).symm
    · exact (if_neg (completionOf_error hcode)).symm

/-- A host write to a slot other than CMD leaves STATUS.ERR and the error log. -/
theorem State.writeSlot_errLog_err (s : State) (slot : Slot) (data : HostWord) :
    (s.writeSlot slot data).errLog = s.errLog ∧ (s.writeSlot slot data).err = s.err := by
  rcases State.writeSlot_cases s slot data with e | ⟨-, e⟩ | ⟨-, e⟩ | ⟨r, j, -, -, e⟩ | ⟨j, -, -, e⟩ <;> rw [e] <;> exact ⟨rfl, rfl⟩

/-- But for the reset input and a CMD write, no step touches the error log or STATUS.ERR (R32, R182). -/
theorem step_errLog_err {s t : State} (h : step s = .next t) (hr : s.bus.head? ≠ some .reset)
    (hw : ∀ w, s.bus.head? ≠ some (cmdEvent s.cfg w)) : t.errLog = s.errLog ∧ t.err = s.err := by
  obtain ⟨-, hcase⟩ := step_cases h
  cases hcase with
  | cycle hb ht => exact ht ▸ ⟨rfl, rfl⟩
  | reset hb ht => exact absurd hb hr
  | poll hb ht => exact ht ▸ ⟨rfl, rfl⟩
  | outside addr hout hb ht => exact ht ▸ ⟨rfl, rfl⟩
  | status addr hb ht => exact ht ▸ ⟨rfl, rfl⟩
  | read addr off hb ho hs ht => exact ht ▸ ⟨rfl, rfl⟩
  | write addr off data hb ho hs hi ht => exact ht ▸ State.writeSlot_errLog_err s.pop _ data
  | illegal w hd hi hn hb ht => exact absurd hb (hw w)
  | command i hn hi hb ht =>
    obtain ⟨w, hb, -⟩ := hb
    exact absurd hb (hw w)

/-- A CMD write that is answered found BUSY = 0 (R206). -/
theorem step_cmdEvent_idle {s t : State} {rest : List HostEvent} {w : HostWord} (h : step s = .next t)
    (hb : s.bus = cmdEvent s.cfg w :: rest) : s.busy = false := by
  obtain ⟨hc, -⟩ := step_cases h
  rw [← Bool.not_eq_true]
  intro hbusy
  rw [step_write (off := 0) hc (by decide) rfl hb, writeSlot_of_busy (s := { s with bus := rest }) hbusy] at h
  cases h

/-- Settles O48: a CMD write is answered only while BUSY = 0, and is then `cmdWrite`'s; every other step leaves the log and ERR. -/
theorem errorLogIsSticky : Obligations.ErrorLogIsSticky := by
  intro s t h hr
  obtain ⟨hc, -⟩ := step_cases h
  refine ⟨fun w rest hb => ?_, fun hw => step_errLog_err h hr fun w hb => ?_⟩
  · rw [step_cmdEvent hc (step_cmdEvent_idle h hb) hb] at h
    exact cmdWrite_errLog (s := { s with bus := rest }) h
  · obtain ⟨rest, hb⟩ := List.head?_eq_some_iff.1 hb
    exact hw ⟨w, rest, hb⟩

end Sys2Proof.Machine
end
